-- ==== Sys2Proof/Word.lean ====
section
/-! DEFINITION. The two data widths of the CORE (rule R8, rule R9): a word is 32 bits, a byte is 8 bits. -/

namespace Sys2Proof

/-- A 32-bit word, the spec's `u32` (rule R9). `+` on words is the sum modulo 2^32 (rule R10). -/
abbrev Word := BitVec 32

/-- An 8-bit byte, the spec's `u8` (rule R9). -/
abbrev Byte := BitVec 8

end Sys2Proof
end

