-- ==== Sys2Proof/Syntax.lean ====
section
/-! DEFINITION. The commands of the CORE: one constructor per row of spec/opcode_table.json (rule R78). -/

namespace Sys2Proof

/-- A decoded command (rule R79). The CORE's command is its analogue of an instruction (rule R14). -/
inductive Instr where
  /-- NOP, `cmd_word = 0x00000000` (rule R161). -/
  | nop
  /-- INIT, `cmd_word = 0x00000001` (rule R164). -/
  | init
  /-- UPDATE, `cmd_word = 0x00000002 | (NB-1) << 8`: `nb` is NB in 1..4 (rule R75), `data` is the raw 32-bit operand DATA,
  of which the bytes 0..NB-1 are used (rule R76, rule R82). -/
  | update (nb : Nat) (data : Word)
  /-- FINAL, `cmd_word = 0x00000003` (rule R175). -/
  | final
  deriving DecidableEq, Repr

end Sys2Proof
end

