-- ==== Sys2Proof/WellFormed.lean ====
section
/-! DEFINITION. Which terms of `Instr` are commands the port can carry (rule R75: NB is a natural in 1..4). -/

namespace Sys2Proof

/-- Rule R75: "An UPDATE with zero bytes cannot be encoded", and NB is at most 4. The other commands have no operand. -/
def Instr.wellFormed : Instr → Bool
  | .nop => true
  | .init => true
  | .update nb _ => decide (1 ≤ nb) && decide (nb ≤ 4)
  | .final => true

end Sys2Proof
end

