-- ==== Sys2Proof/Decode.lean ====
section
/-! DEFINITION. The fields of a command word (rule R73), legality (rule R77), the total decoder (rule R79), the opcode map
(rule R78) and the encoder (rule R83), and the decoder as the host asks for it. -/

namespace Sys2Proof

/-- OPC, `cmd_word[3:0]` (rule R74). -/
def opc (w : Word) : BitVec 4 := w.extractLsb' 0 4

/-- RSV0, `cmd_word[7:4]` (rule R73). -/
def rsv0 (w : Word) : BitVec 4 := w.extractLsb' 4 4

/-- NBM1, `cmd_word[9:8]` (rule R73). -/
def nbm1 (w : Word) : BitVec 2 := w.extractLsb' 8 2

/-- RSV1, `cmd_word[31:10]` (rule R73). -/
def rsv1 (w : Word) : BitVec 22 := w.extractLsb' 10 22

/-- `Legal(w)` of rule R77. -/
def legal (w : Word) : Bool :=
  (opc w == 0x0 || opc w == 0x1 || opc w == 0x2 || opc w == 0x3)
    && rsv0 w == 0 && rsv1 w == 0 && (opc w == 0x2 || nbm1 w == 0)

/-- Why a word is illegal (rule R80). The CORE does not tell the reasons apart: every one is ILLEGAL_COMMAND (rule R207). -/
inductive IllegalReason where
  /-- OPC in 0x4..0xF. -/
  | reservedOpcode
  /-- RSV0 is not 0. -/
  | rsv0Nonzero
  /-- RSV1 is not 0. -/
  | rsv1Nonzero
  /-- NBM1 is not 0 and OPC is not 0x2. -/
  | nbm1Nonzero
  deriving DecidableEq, Repr

/-- What the decoder answers: a command, or ILLEGAL with the first reason in the order of the fields named above (log 15). -/
inductive Decoded where
  | instr (i : Instr)
  | illegal (why : IllegalReason)
  deriving DecidableEq, Repr

/-- The command, if the word is legal. -/
def Decoded.toOption : Decoded → Option Instr
  | .instr i => some i
  | .illegal _ => none

/-- The decoder of rule R79, total on every word and data operand. DATA is kept for UPDATE alone (rule R76). -/
def decode (w data : Word) : Decoded :=
  if opc w ≠ 0x0 ∧ opc w ≠ 0x1 ∧ opc w ≠ 0x2 ∧ opc w ≠ 0x3 then .illegal .reservedOpcode
  else if rsv0 w ≠ 0 then .illegal .rsv0Nonzero
  else if rsv1 w ≠ 0 then .illegal .rsv1Nonzero
  else if opc w ≠ 0x2 ∧ nbm1 w ≠ 0 then .illegal .nbm1Nonzero
  else if opc w = 0x0 then .instr .nop
  else if opc w = 0x1 then .instr .init
  else if opc w = 0x2 then .instr (.update ((nbm1 w).toNat + 1) data)
  else .instr .final

/-- One row of the opcode map (rule R78). -/
structure OpcodeRow where
  mnemonic : String
  pattern : Word
  mask : Word
  deriving DecidableEq, Repr

/-- "A word `w` selects a row when `(w & mask) = match`" (rule R78). -/
def OpcodeRow.selects (row : OpcodeRow) (w : Word) : Bool := w &&& row.mask == row.pattern

def nopRow : OpcodeRow := { mnemonic := "NOP", pattern := 0x00000000, mask := 0xFFFFFFFF }
def initRow : OpcodeRow := { mnemonic := "INIT", pattern := 0x00000001, mask := 0xFFFFFFFF }
def updateRow : OpcodeRow := { mnemonic := "UPDATE", pattern := 0x00000002, mask := 0xFFFFFCFF }
def finalRow : OpcodeRow := { mnemonic := "FINAL", pattern := 0x00000003, mask := 0xFFFFFFFF }

/-- The opcode map of rule R78. -/
def opcodeMap : List OpcodeRow := [nopRow, initRow, updateRow, finalRow]

/-- The row a command belongs to. -/
def Instr.row : Instr → OpcodeRow
  | .nop => nopRow
  | .init => initRow
  | .update _ _ => updateRow
  | .final => finalRow

/-- The encoder (rule R83): `cmd_word` and `cmd_data`. The DATA of NOP, INIT and FINAL is ignored by the CORE; the encoder
gives 0 (DESIGN CHOICE, log 14). -/
def encode : Instr → Word × Word
  | .nop => (0x00000000, 0)
  | .init => (0x00000001, 0)
  | .update nb data => (0x00000002 ||| (BitVec.ofNat 32 (nb - 1) <<< 8), data)
  | .final => (0x00000003, 0)

/-- The decoder as the host asks for it: bits 31..0 of the number are `cmd_word`, bits 63..32 are `cmd_data` (the bits above
`nbits` are 0). -/
def decodeTableWord (nbits w : Nat) : Option Instr :=
  let bits := w % 2 ^ nbits
  (decode (BitVec.ofNat 32 bits) (BitVec.ofNat 32 (bits / 2 ^ 32))).toOption

end Sys2Proof
end

