-- ==== Sys2Proof/Config.lean ====
section
/-! DEFINITION. What an implementation fixes (the elaboration-time parameters of rule R7) and the free values: constants
without a body that stand where the spec says a value is unspecified, so that no proof can see what they are. -/

namespace Sys2Proof

/-- The elaboration-time parameters of rule R7 that are open. They are no state and no command changes them (rule R36);
State carries them because the model's step takes no other argument (log 2). -/
structure Params where
  /-- `STRICT`: the misuses of rule R200, codes 1 and 2, are checked and raised (rule R205). -/
  strict : Bool
  /-- `BLOCK_ONLY`: FINAL requires a whole number of blocks (rule R176). -/
  blockOnly : Bool
  /-- `COUNTER_CARRY64`: the byte counter carries into its high half (rule R25). -/
  counterCarry64 : Bool
  /-- `COMPRESS_CYCLES`: the cycles the CORE is busy per compression, a natural at least 1 (rule R245). -/
  compressCycles : Nat
  deriving DecidableEq, Repr

/-- Rule R7 gives `COMPRESS_CYCLES` the type "natural ≥ 1". -/
abbrev Params.valid (p : Params) : Prop := 1 ≤ p.compressCycles

/-- DESIGN CHOICE (log 2, log 3; unsafe for a claim that rests on it): the parameters that `State.reset` holds. The first
three are the setting of the spec's own test vectors (95_test_vectors.md); `COMPRESS_CYCLES` is the least legal value. -/
def Params.default : Params :=
  { strict := true, blockOnly := false, counterCarry64 := false, compressCycles := 1 }

/-- FREE VALUE (log 6): how many G steps the sequencer performs at a busy edge that is not the completion edge. The spec
gives no sequencing of the rounds over the cycles (rule R245, rule R247); no result depends on it. -/
opaque Config.gStepsAtEdge : Nat → Nat

/-- FREE VALUE (log 5): `h_in` between compressions (rule R35: "unspecified and unobservable"). -/
opaque Config.freeHIn : Nat → Vector Word 8

/-- FREE VALUE (log 5): `m` between compressions (rule R35). -/
opaque Config.freeM : Nat → Vector Word 16

/-- FREE VALUE (log 5): `v` between compressions (rule R35). -/
opaque Config.freeV : Nat → Vector Word 16

/-- FREE VALUE (log 5): `rnd` between compressions (rule R35). -/
opaque Config.freeRnd : Nat → Fin 10

/-- FREE VALUE (log 5): `stp` between compressions (rule R35). -/
opaque Config.freeStp : Nat → Fin 8

/-- FREE VALUE (log 5): `cyc` between compressions (rule R35). -/
opaque Config.freeCyc : Nat → Nat

end Sys2Proof
end

