-- ==== Sys2Proof/Machine/State.lean ====
section
/-! DEFINITION. The state of the CORE (rule R20), what the host drives (rule R70, rule R72), the reasons a step stops, and the
state after reset (rule R40). -/

namespace Sys2Proof.Machine

/-- The streaming state machine's state (rule R22); the encoding 3 is never held. -/
inductive Fsm where
  | empty
  | accum
  | final
  deriving DecidableEq, Repr

/-- The result codes held in `errc` (rule R200). -/
inductive ErrCode where
  | ok
  | invalidArgument
  | misusedState
  | illegalCommand
  deriving DecidableEq, Repr

/-- The input buffer (rule R30, rule R51) as address and byte pairs: addresses strictly rising and below 64, and no entry equal
to the byte an unlisted address reads as, 0x00 (log 12). -/
abbrev Memory := List Host.Cell

/-- The hidden fields (rule R35): they carry a compression in progress, and no read shows them. -/
structure Hidden where
  /-- The chaining value at compression start. -/
  hIn : Vector Word 8
  /-- The sixteen message words, latched from the buffer at compression start (rule R141). -/
  m : Vector Word 16
  /-- The working vector (rule R142). -/
  v : Vector Word 16
  /-- The round of the next G step (rule R130). -/
  rnd : Fin 10
  /-- The step, within the round, of the next G step (rule R130). -/
  stp : Fin 8
  /-- The cycles remaining until completion (rule R245). -/
  cyc : Nat
  deriving DecidableEq, Repr

/-- One thing the host does on the command port (log 8). -/
inductive Presented where
  /-- One edge with `cmd_valid = 0`. -/
  | idle
  /-- `cmd_valid = 1` with this `cmd_word` and `cmd_data`, held until the command is accepted (rule R70, rule R240 item 1). -/
  | command (word data : Word)
  deriving DecidableEq, Repr

/-- What the host will drive, oldest first: the model's own field, so that the step is a function of the state (log 8). -/
structure HostPort where
  /-- The level of `rst` at the coming edges; low past the end of the list. -/
  rstWire : List Bool
  /-- What the host presents on the command port; idle past the end of the list. -/
  queue : List Presented
  deriving DecidableEq, Repr

/-- The state of the CORE: the record of rule R20, the parameters of rule R7 (`cfg`, log 2), what the host drives (`host`,
log 8) and the counter that numbers the free values (`freeCount`, log 7). -/
@[ext]
structure State where
  cfg : Params
  fsm : Fsm
  chain : Vector Word 8
  tLo : Word
  tHi : Word
  f0 : Bool
  f1 : Bool
  buf : Memory
  bufLen : Fin 65
  errc : ErrCode
  errs : Bool
  busy : Bool
  hidden : Hidden
  host : HostPort
  freeCount : Nat
  deriving DecidableEq, Repr

/-- Why the machine stops with a fault. Each is a behaviour the spec calls undefined and names as the model's fault outcome
(rule R205, U1 to U3); each is SAFE: the hardware goes on in an unspecified way and the model claims nothing. -/
inductive Fault where
  /-- `UPDATE_OUTSIDE_ACCUM`: raised by UPDATE when `fsm` is not ACCUM and `STRICT = 0` (rule R170, rule R205). Safe. -/
  | updateOutsideAccum
  /-- `FINAL_OUTSIDE_ACCUM`: raised by FINAL when `fsm` is not ACCUM and `STRICT = 0` (rule R175, rule R205). Safe. -/
  | finalOutsideAccum
  /-- `UNALIGNED_LENGTH`: raised by FINAL in ACCUM when `BLOCK_ONLY` and `buf_len` is not 0 or 64, and `STRICT = 0` (rule
  R176, rule R205). Safe. -/
  | unalignedLength
  deriving DecidableEq, Repr

/-- Why the machine refuses an instruction. No instruction of this model is refused. -/
inductive Refusal where
  /-- An instruction without a meaning: raised by its arm of `exec` alone, and no arm raises it now. Safe. -/
  | notModelled (mnemonic : String)
  deriving DecidableEq, Repr

/-- DESIGN CHOICE (log 4; unsafe for a claim that rests on it): the hidden fields after reset, which rule R40 leaves
"unspecified, unobservable". -/
def Hidden.reset : Hidden :=
  { hIn := Vector.replicate 8 0, m := Vector.replicate 16 0, v := Vector.replicate 16 0, rnd := 0, stp := 0, cyc := 0 }

/-- The state after reset (rule R40) of a CORE elaborated with the parameters `p`, which reset does not change (rule R231);
`host` and `freeCount` are the model's own and are given. -/
def State.resetWith (p : Params) (host : HostPort) (freeCount : Nat) : State :=
  { cfg := p
    fsm := .empty
    chain := Vector.replicate 8 0
    tLo := 0
    tHi := 0
    f0 := false
    f1 := false
    buf := []
    bufLen := 0
    errc := .ok
    errs := false
    busy := false
    hidden := Hidden.reset
    host := host
    freeCount := freeCount }

/-- The machine right after reset, with the default parameters (log 2, log 3) and a host that drives nothing (log 8). -/
def State.reset : State :=
  State.resetWith Params.default { rstWire := [], queue := [] } 0

end Sys2Proof.Machine
end

