-- ==== Sys2Proof/Machine/Flags.lean ====
section
/-! DEFINITION. The flags and codes as bits: flag words (rule R13), the last-node constant (rule R7) and the encodings that
STATUS shows (rule R22, rule R200). The CORE has no condition flag and no operation writes one (rule R107). -/

namespace Sys2Proof.Machine

/-- `(f ? 0xFFFFFFFF : 0)` (rule R13). -/
def flagWord (f : Bool) : Word := if f then 0xFFFFFFFF else 0x00000000

/-- The configuration constant `LAST_NODE`, fixed 0 in this hardware (rule R7, rule R29). -/
def lastNode : Bool := false

/-- The encoding of `fsm` (rule R22). -/
def Fsm.code : Fsm → BitVec 2
  | .empty => 0
  | .accum => 1
  | .final => 2

/-- The encoding of `errc` (rule R200). -/
def ErrCode.code : ErrCode → BitVec 2
  | .ok => 0
  | .invalidArgument => 1
  | .misusedState => 2
  | .illegalCommand => 3

end Sys2Proof.Machine
end

