-- ==== Sys2Proof/Machine/Ops.lean ====
section
/-! DEFINITION. The named operations over the state: its field updates, the buffer memory (rule R50 to rule R53), the byte
counter (rule R25), and the raising of an error, which is the whole of what an exception does in the CORE (rule R203, rule
R213; there is nothing to return from, rule R214). -/

namespace Sys2Proof.Machine

/-! ### Field updates -/

/-- `errc` and `errs`. -/
def State.setResult (s : State) (code : ErrCode) (sticky : Bool) : State := { s with errc := code, errs := sticky }

/-- The counter halves `t_lo` and `t_hi`. -/
def State.setCounter (s : State) (lo hi : Word) : State := { s with tLo := lo, tHi := hi }

/-- The finalization flags `f0` and `f1`. -/
def State.setFlags (s : State) (last node : Bool) : State := { s with f0 := last, f1 := node }

/-- The buffer's bytes. -/
def State.setBuf (s : State) (mem : Memory) : State := { s with buf := mem }

/-- `buf_len`. -/
def State.setBufLen (s : State) (n : Fin 65) : State := { s with bufLen := n }

/-- `fsm`. -/
def State.setFsm (s : State) (f : Fsm) : State := { s with fsm := f }

/-- `chain[0..7]`. -/
def State.setChain (s : State) (h : Vector Word 8) : State := { s with chain := h }

/-- `busy`. -/
def State.setBusy (s : State) (b : Bool) : State := { s with busy := b }

/-- The hidden fields. -/
def State.setHidden (s : State) (h : Hidden) : State := { s with hidden := h }

/-- What the host drives. -/
def State.setHost (s : State) (h : HostPort) : State := { s with host := h }

/-- Take the next number for a free value (log 7). -/
def State.countFree (s : State) : State := { s with freeCount := s.freeCount + 1 }

/-! ### The buffer memory -/

/-- What an address reads as that the list does not hold: its reset value 0x00 (rule R40, log 12). -/
def Memory.unlisted : Byte := 0x00

/-- One byte of the buffer. The address type says that no address but 0..63 exists (rule R51). -/
def Memory.read : Memory → Fin 64 → Byte
  | [], _ => Memory.unlisted
  | (k, b) :: rest, a => if k = a.val then b else Memory.read rest a

/-- Write one byte of the buffer and keep the canonical form. -/
def Memory.write : Memory → Fin 64 → Byte → Memory
  | [], a, b => if b = Memory.unlisted then [] else [(a.val, b)]
  | (k, c) :: rest, a, b =>
    if a.val < k then (if b = Memory.unlisted then (k, c) :: rest else (a.val, b) :: (k, c) :: rest)
    else if a.val = k then (if b = Memory.unlisted then rest else (k, b) :: rest)
    else (k, c) :: Memory.write rest a b

/-- The canonical form: addresses below 64 and strictly rising, no entry that reads as an unlisted address does. -/
def Memory.wf : Memory → Bool
  | [] => true
  | (k, b) :: rest =>
    decide (k < 64) && decide (b ≠ Memory.unlisted) && rest.all (fun cell => decide (k < cell.1)) && Memory.wf rest

/-- `MemRead(addr, n)` (rule R52). -/
def Memory.readBytes (mem : Memory) (addr n : Nat) (h : addr + n ≤ 64) : List Byte :=
  (List.finRange n).map fun k => Memory.read mem ⟨addr + k.val, by omega⟩

/-- `MemWrite(addr, n, bytes)` (rule R53), `n` the number of bytes. -/
def Memory.writeBytes : (mem : Memory) → (addr : Nat) → (bytes : List Byte) → addr + bytes.length ≤ 64 → Memory
  | mem, _, [], _ => mem
  | mem, addr, b :: bytes, h =>
    have hAddr : addr < 64 := by simp only [List.length_cons] at h; omega
    have hRest : addr + 1 + bytes.length ≤ 64 := by simp only [List.length_cons] at h; omega
    Memory.writeBytes (Memory.write mem ⟨addr, hAddr⟩ b) (addr + 1) bytes hRest

/-! ### The byte counter -/

/-- The 64-bit counter `t = {t_hi, t_lo}` as a number (rule R11, rule R24). -/
def counter (s : State) : Nat := s.tHi.toNat * 2 ^ 32 + s.tLo.toNat

/-- The halves (`t_lo`, `t_hi`) that `CounterAdd(n)` leaves (rule R25): a 64-bit addition with `COUNTER_CARRY64`, else the
low half wraps and the high half stays. -/
def counterNext (n : Nat) (s : State) : Word × Word :=
  if s.cfg.counterCarry64 then
    let sum := (counter s + n) % 2 ^ 64
    (BitVec.ofNat 32 sum, BitVec.ofNat 32 (sum / 2 ^ 32))
  else
    (s.tLo + BitVec.ofNat 32 n, s.tHi)

/-- `CounterAdd(n)` (rule R25). -/
def counterAdd (n : Nat) (s : State) : State := s.setCounter (counterNext n s).1 (counterNext n s).2

/-! ### Errors -/

/-- `raise E` (rule R203): the code and the sticky bit, and no other change. -/
def raiseError (code : ErrCode) (s : State) : State := s.setResult code true

/-- A command that succeeds writes `errc` with OK and leaves `errs` (rule R32, rule R33). -/
def succeed (s : State) : State := s.setResult .ok s.errs

/-- A misuse (rule R205): checked and raised with `STRICT = 1`; with `STRICT = 0` the behaviour is undefined, and the spec
names it a fault of the model (log 10). -/
def misuse (code : ErrCode) (reason : Fault) (s : State) : Host.Outcome State Fault Refusal :=
  if s.cfg.strict then .next (raiseError code s) else .fault reason

end Sys2Proof.Machine
end

