-- ==== Sys2Proof/Machine/Primitives.lean ====
section
/-! DEFINITION. The datapath primitives (40_primitives.md): 32-bit little-endian load and store, right rotation, modular
addition and exclusive or. None writes a flag and none raises an error (rule R107). -/

namespace Sys2Proof.Machine

/-- `add32(a, b)` (rule R105): the sum modulo 2^32, the carry discarded. -/
def add32 (a b : Word) : Word := a + b

/-- `xor32(a, b)` (rule R106). -/
def xor32 (a b : Word) : Word := a ^^^ b

/-- `rotr(x, n)`, `0 < n < 32` (rule R103). The CORE uses the amounts 16, 12, 8 and 7 (rule R104). -/
def rotr (x : Word) (n : Nat) : Word := (x >>> n) ||| (x <<< (32 - n))

/-- Four bytes as a little-endian word (rule R100). -/
def word32le (b0 b1 b2 b3 : Byte) : Word :=
  b0.setWidth 32 ||| (b1.setWidth 32 <<< 8) ||| (b2.setWidth 32 <<< 16) ||| (b3.setWidth 32 <<< 24)

/-- `load32_le(addr)` (rule R100), on the buffer. -/
def load32le (mem : Memory) (addr : Nat) (h : addr + 4 ≤ 64) : Word :=
  word32le (Memory.read mem ⟨addr, by omega⟩) (Memory.read mem ⟨addr + 1, by omega⟩)
    (Memory.read mem ⟨addr + 2, by omega⟩) (Memory.read mem ⟨addr + 3, by omega⟩)

/-- `store32_le(w)` (rule R101): byte 0 first. -/
def store32le (w : Word) : List Byte :=
  [w.extractLsb' 0 8, w.extractLsb' 8 8, w.extractLsb' 16 8, w.extractLsb' 24 8]

end Sys2Proof.Machine
end

