-- ==== Sys2Proof/Machine/Mixing.lean ====
section
/-! DEFINITION. The mixing function G, the quadruples, the message schedule and the ten-round pipeline (41_mixing_g.md). -/

namespace Sys2Proof.Machine

/-- The four accumulator words of G. -/
structure Quad where
  a : Word
  b : Word
  c : Word
  d : Word
  deriving DecidableEq, Repr

/-- G (rule R120): the eight statements in order, each seeing the results of those before it. -/
def mixG (q : Quad) (m1 m2 : Word) : Quad :=
  let a := add32 (add32 q.a q.b) m1
  let d := rotr (xor32 q.d a) 16
  let c := add32 q.c d
  let b := rotr (xor32 q.b c) 12
  let a := add32 (add32 a b) m2
  let d := rotr (xor32 d a) 8
  let c := add32 c d
  let b := rotr (xor32 b c) 7
  { a := a, b := b, c := c, d := d }

/-- The four working-vector indices of a step. -/
structure QuadIndex where
  a : Fin 16
  b : Fin 16
  c : Fin 16
  d : Fin 16
  deriving DecidableEq, Repr

/-- The quadruple of step `i` (rule R122; the formula governs, rule R123 and C1). It does not depend on the round. -/
def quadruple (i : Fin 8) : QuadIndex :=
  let bit4 := i.val / 4
  { a := ⟨(i.val + 0 * bit4) % 4 + 0, by omega⟩
    b := ⟨(i.val + 1 * bit4) % 4 + 4, by omega⟩
    c := ⟨(i.val + 2 * bit4) % 4 + 8, by omega⟩
    d := ⟨(i.val + 3 * bit4) % 4 + 12, by omega⟩ }

/-- `Gv` (rule R121): G on the four words of the quadruple, written back to the same four positions. -/
def mixAt (v : Vector Word 16) (q : QuadIndex) (m1 m2 : Word) : Vector Word 16 :=
  let r := mixG { a := v[q.a], b := v[q.b], c := v[q.c], d := v[q.d] } m1 m2
  (((v.set q.a r.a).set q.b r.b).set q.c r.c).set q.d r.d

/-- The message schedule, one row per round (rule R126). -/
def sigma : Fin 10 → Vector (Fin 16) 16
  | 0 => #v[0, 1, 2, 3, 4, 5, 6, 7, 8, 9, 10, 11, 12, 13, 14, 15]
  | 1 => #v[14, 10, 4, 8, 9, 15, 13, 6, 1, 12, 0, 2, 11, 7, 5, 3]
  | 2 => #v[11, 8, 12, 0, 5, 2, 15, 13, 10, 14, 3, 6, 7, 1, 9, 4]
  | 3 => #v[7, 9, 3, 1, 13, 12, 11, 14, 2, 6, 5, 10, 4, 0, 15, 8]
  | 4 => #v[9, 0, 5, 7, 2, 4, 10, 15, 14, 1, 11, 12, 6, 8, 3, 13]
  | 5 => #v[2, 12, 6, 10, 0, 11, 8, 3, 4, 13, 7, 5, 15, 14, 1, 9]
  | 6 => #v[12, 5, 1, 15, 14, 13, 4, 10, 0, 7, 6, 3, 9, 2, 8, 11]
  | 7 => #v[13, 11, 7, 14, 12, 1, 3, 9, 5, 0, 15, 4, 8, 6, 2, 10]
  | 8 => #v[6, 15, 14, 9, 11, 3, 0, 8, 12, 2, 13, 7, 1, 4, 10, 5]
  | 9 => #v[10, 2, 8, 4, 7, 6, 1, 5, 15, 11, 9, 14, 3, 12, 13, 0]

/-- The packed schedule (rule R127): the high nibble is the first index, the low nibble the second. -/
def sigmaPacked : Fin 10 → Vector Byte 8
  | 0 => #v[0x01, 0x23, 0x45, 0x67, 0x89, 0xAB, 0xCD, 0xEF]
  | 1 => #v[0xEA, 0x48, 0x9F, 0xD6, 0x1C, 0x02, 0xB7, 0x53]
  | 2 => #v[0xB8, 0xC0, 0x52, 0xFD, 0xAE, 0x36, 0x71, 0x94]
  | 3 => #v[0x79, 0x31, 0xDC, 0xBE, 0x26, 0x5A, 0x40, 0xF8]
  | 4 => #v[0x90, 0x57, 0x24, 0xAF, 0xE1, 0xBC, 0x68, 0x3D]
  | 5 => #v[0x2C, 0x6A, 0x0B, 0x83, 0x4D, 0x75, 0xFE, 0x19]
  | 6 => #v[0xC5, 0x1F, 0xED, 0x4A, 0x07, 0x63, 0x92, 0x8B]
  | 7 => #v[0xDB, 0x7E, 0xC1, 0x39, 0x50, 0xF4, 0x86, 0x2A]
  | 8 => #v[0x6F, 0xE9, 0xB3, 0x08, 0xC2, 0xD7, 0x14, 0xA5]
  | 9 => #v[0xA2, 0x84, 0x76, 0x15, 0xFB, 0x9E, 0x3C, 0xD0]

/-- The first message index of step `i` of round `r`, which feeds the first half of G (rule R128). -/
def firstIndex (r : Fin 10) (i : Fin 8) : Fin 16 := (sigma r)[2 * i.val]

/-- The second message index of step `i` of round `r`, which feeds the second half of G (rule R128). -/
def secondIndex (r : Fin 10) (i : Fin 8) : Fin 16 := (sigma r)[2 * i.val + 1]

/-- Step `i` of round `r` (rule R129). -/
def gStep (m v : Vector Word 16) (r : Fin 10) (i : Fin 8) : Vector Word 16 :=
  mixAt v (quadruple i) m[firstIndex r i] m[secondIndex r i]

/-- `ROUND(v, m, r)` (rule R129): the eight steps in order. -/
def mixRound (m v : Vector Word 16) (r : Fin 10) : Vector Word 16 :=
  (List.finRange 8).foldl (fun w i => gStep m w r i) v

/-- The ten-round pipeline (rule R130): rounds 0 to 9 in order. -/
def pipeline (m v : Vector Word 16) : Vector Word 16 :=
  (List.finRange 10).foldl (fun w r => mixRound m w r) v

end Sys2Proof.Machine
end

