-- ==== Sys2Proof/Machine/Compression.lean ====
section
/-! DEFINITION. The constants, COMPRESS and its parts (42_compression.md), and the sequencer that carries a compression from the
edge that starts it to its completion edge (rule R35, rule R130, rule R245). -/

namespace Sys2Proof.Machine

/-! ### Constants -/

/-- `IV[0..7]` (rule R140). -/
def iv : Vector Word 8 :=
  #v[0x6A09E667, 0xBB67AE85, 0x3C6EF372, 0xA54FF53A, 0x510E527F, 0x9B05688C, 0x1F83D9AB, 0x5BE0CD19]

/-- The parameter word `PARAM0` (rule R147). -/
def param0 : Word := 0x01010020

/-- The chaining value that INIT seeds (rule R164): the IV with its word 0 XORed with the parameter word. -/
def initChain : Vector Word 8 := iv.set 0 (xor32 iv[0] param0)

/-! ### COMPRESS -/

/-- The message load (rule R141). -/
def loadMessage (mem : Memory) : Vector Word 16 :=
  Vector.ofFn fun j : Fin 16 => load32le mem (4 * j.val) (by omega)

/-- The working vector at compression start (rule R142). -/
def initWork (chain : Vector Word 8) (tLo tHi : Word) (f0 f1 : Bool) : Vector Word 16 :=
  #v[chain[0], chain[1], chain[2], chain[3], chain[4], chain[5], chain[6], chain[7],
     iv[0], iv[1], iv[2], iv[3],
     xor32 iv[4] tLo, xor32 iv[5] tHi, xor32 iv[6] (flagWord f0), xor32 iv[7] (flagWord f1)]

/-- The state folder (rule R146). -/
def foldState (hIn : Vector Word 8) (v : Vector Word 16) : Vector Word 8 :=
  Vector.ofFn fun k : Fin 8 => xor32 (xor32 hIn[k.val] v[k.val]) v[k.val + 8]

/-- COMPRESS on message words already loaded: rule R142, rule R143, rule R146. -/
def compressWords (chain : Vector Word 8) (m : Vector Word 16) (tLo tHi : Word) (f0 f1 : Bool) : Vector Word 8 :=
  foldState chain (pipeline m (initWork chain tLo tHi f0 f1))

/-- `COMPRESS(chain, buf, t_lo, t_hi, f0, f1)` (rule R148). -/
def compress (chain : Vector Word 8) (mem : Memory) (tLo tHi : Word) (f0 f1 : Bool) : Vector Word 8 :=
  compressWords chain (loadMessage mem) tLo tHi f0 f1

/-! ### The sequencer -/

/-- One G step at the position (`rnd`, `stp`), and the next position: step 7 of a round is followed by step 0 of the next
(rule R130). -/
def Hidden.advance (h : Hidden) : Hidden :=
  { h with
    v := gStep h.m h.v h.rnd h.stp
    stp := h.stp + 1
    rnd := if h.stp = 7 then h.rnd + 1 else h.rnd }

/-- `n` G steps. -/
def Hidden.runSteps : Nat → Hidden → Hidden
  | 0, h => h
  | n + 1, h => Hidden.runSteps n h.advance

/-- The G steps from the position (`rnd`, `stp`) to the end of the schedule. -/
def Hidden.stepsLeft (h : Hidden) : Nat := 80 - (8 * h.rnd.val + h.stp.val)

/-- The working vector when the rest of the schedule has run. -/
def Hidden.finishWork (h : Hidden) : Vector Word 16 := (Hidden.runSteps h.stepsLeft h).v

/-- "start COMPRESS" and `busy <- 1` (rule R171, rule R177): the chaining value and the message words are latched, the working
vector is set up, and the cycle count starts (rule R35, rule R245). -/
def startCompress (s : State) : State :=
  (s.setHidden
    { hIn := s.chain
      m := loadMessage s.buf
      v := initWork s.chain s.tLo s.tHi s.f0 s.f1
      rnd := 0
      stp := 0
      cyc := s.cfg.compressCycles }).setBusy true

/-- The hidden fields between compressions: free values (rule R35, U8; log 5). -/
def Hidden.free (n : Nat) : Hidden :=
  { hIn := Config.freeHIn n, m := Config.freeM n, v := Config.freeV n
    rnd := Config.freeRnd n, stp := Config.freeStp n, cyc := Config.freeCyc n }

/-- The completion edge (rule R245): `chain` is written with the fold and `busy <- 0`. -/
def completeCompress (s : State) : State :=
  (((s.setChain (foldState s.hidden.hIn s.hidden.finishWork)).setBusy false).setHidden (Hidden.free s.freeCount)).countFree

/-- The G steps performed at a busy edge before the completion edge: a free number (log 6), at most what leaves one step for
the completion edge, so that (`rnd`, `stp`) is always a position of the schedule. -/
def stepsNow (s : State) : Nat := min (Config.gStepsAtEdge s.freeCount) (s.hidden.stepsLeft - 1)

/-- A busy edge before the completion edge: the sequencer advances and one cycle less remains. -/
def progressCompress (s : State) : State :=
  (s.setHidden { Hidden.runSteps (stepsNow s) s.hidden with cyc := s.hidden.cyc - 1 }).countFree

/-- A busy edge (rule R245): the completion edge when one cycle remains, else progress (`cyc = 0` is never reached, log 19). -/
def busyEdge (s : State) : State :=
  if s.hidden.cyc ≤ 1 then completeCompress s else progressCompress s

end Sys2Proof.Machine
end

