-- ==== Sys2Proof/Machine/Buffer.lean ====
section
/-! DEFINITION. The block-triggering buffer: AppendByte (rule R171, rule R172) and FinalBlock (rule R177). -/

namespace Sys2Proof.Machine

/-- The block trigger of rule R171: a full buffer is compressed, with its 64 bytes counted first, and emptied. -/
def flushFull (s : State) : State :=
  if s.bufLen = 64 then (startCompress (counterAdd 64 s)).setBufLen 0 else s

/-- The address the next byte goes to, `buf_len` (rule R172). It is below 64 wherever a byte is stored, since `flushFull` comes
first; the modulus keeps the address in the space in every state. -/
def nextAddr (s : State) : Fin 64 := ⟨s.bufLen.val % 64, by omega⟩

/-- `MemWrite(buf_len, 1, [b])` and `buf_len <- buf_len + 1` (rule R171, rule R172). -/
def storeByte (b : Byte) (s : State) : State :=
  (s.setBuf (Memory.write s.buf (nextAddr s) b)).setBufLen ⟨(nextAddr s).val + 1, by omega⟩

/-- `AppendByte(b)` (rule R171). -/
def appendByte (b : Byte) (s : State) : State := storeByte b (flushFull s)

/-- AppendByte on each byte in order (rule R170). -/
def appendBytes : List Byte → State → State
  | [], s => s
  | b :: bytes, s => appendBytes bytes (appendByte b s)

/-- `MemWrite(buf_len, 64 - buf_len, zeros)` (rule R177). -/
def padBuffer (s : State) : State :=
  s.setBuf (Memory.writeBytes s.buf s.bufLen.val (List.replicate (64 - s.bufLen.val) 0x00)
    (by simp only [List.length_replicate]; omega))

/-- `FinalBlock()` (rule R177). -/
def finalBlock (s : State) : State :=
  startCompress (padBuffer ((counterAdd s.bufLen.val s).setFlags true lastNode))

/-- `buf_len not in {0, 64}` under `BLOCK_ONLY` (rule R175, rule R176). -/
def unaligned (s : State) : Bool := s.cfg.blockOnly && !(s.bufLen == 0 || s.bufLen == 64)

end Sys2Proof.Machine
end

