-- ==== Sys2Proof/Machine/Operands.lean ====
section
/-! DEFINITION. The operand of UPDATE: the bytes of DATA in the order they enter the buffer (rule R76). No other command has an
operand (rule R73, rule R82). -/

namespace Sys2Proof.Machine

/-- `byte_k = DATA[8*k+7 : 8*k]` (rule R76). -/
def dataByte (data : Word) (k : Nat) : Byte := data.extractLsb' (8 * k) 8

/-- `byte_0 .. byte_(NB-1)`, first to last (rule R76); the bits above are ignored. -/
def dataBytes (nb : Nat) (data : Word) : List Byte := (List.range nb).map (dataByte data)

end Sys2Proof.Machine
end

