-- ==== Sys2Proof/Machine/Commands.lean ====
section
/-! DEFINITION. The meaning of each command (43_commands.md) and of an illegal word (rule R207). A meaning is what an accepted
command does at its acceptance edge (rule R160); a compression it starts completes at a later edge (rule R245). -/

namespace Sys2Proof.Machine

/-- NOP (rule R161): `errc <- 0`. -/
def execNop (s : State) : Host.Outcome State Fault Refusal := .next (succeed s)

/-- INIT (rule R164), legal in every `fsm` state. -/
def execInit (s : State) : Host.Outcome State Fault Refusal :=
  .next (((((((s.setChain initChain).setCounter 0 0).setFlags false false).setBuf []).setBufLen 0).setFsm .accum).setResult
    .ok false)

/-- UPDATE (rule R170): the bytes of DATA appended in order; outside ACCUM a misuse (rule R206). -/
def execUpdate (nb : Nat) (data : Word) (s : State) : Host.Outcome State Fault Refusal :=
  if s.fsm ≠ .accum then misuse .misusedState .updateOutsideAccum s
  else .next (succeed (appendBytes (dataBytes nb data) s))

/-- FINAL (rule R175): the misuse check first, then the length check of block-only mode, then the final block. -/
def execFinal (s : State) : Host.Outcome State Fault Refusal :=
  if s.fsm ≠ .accum then misuse .misusedState .finalOutsideAccum s
  else if unaligned s then misuse .invalidArgument .unalignedLength s
  else .next (succeed ((finalBlock s).setFsm .final))

/-- An accepted word that is not legal (rule R207): ILLEGAL_COMMAND whatever the reason, the state and `STRICT`. -/
def execIllegal (_why : IllegalReason) (s : State) : Host.Outcome State Fault Refusal :=
  .next (raiseError .illegalCommand s)

end Sys2Proof.Machine
end

