-- ==== Sys2Proof/Machine/Ports.lean ====
section
/-! DEFINITION. The ports (30_encoding.md section 1): what a rising edge does, `cmd_ready`, the host's side of the handshake,
and reset. -/

namespace Sys2Proof.Machine

/-- The level of `rst` at the coming edge. -/
def rstNow (s : State) : Bool := s.host.rstWire.headD false

/-- `cmd_ready = 1` exactly when `rst = 0` and `busy = 0` (rule R70). -/
def cmdReady (s : State) : Bool := !rstNow s && !s.busy

/-- What a rising edge does. Reset has priority over everything (rule R211, rule R230); a busy CORE accepts nothing (rule R34,
rule R70). -/
inductive EdgeEvent where
  | reset
  | busy
  | idle
  | accept (word data : Word)
  deriving DecidableEq, Repr

/-- The event of the coming edge. -/
def edgeEvent (s : State) : EdgeEvent :=
  if rstNow s then .reset
  else if s.busy then .busy
  else match s.host.queue with
    | .command word data :: _ => .accept word data
    | .idle :: _ => .idle
    | [] => .idle

/-- The host after an edge: the next level of `rst`, and on the command port an idle edge is over, an accepted command is
withdrawn, and a command not accepted is held (rule R70, rule R240 item 1; log 8). -/
def HostPort.afterEdge (h : HostPort) (accepted : Bool) : HostPort :=
  { rstWire := h.rstWire.tail
    queue := match h.queue with
      | [] => []
      | .idle :: rest => rest
      | .command word data :: rest => if accepted then rest else .command word data :: rest }

/-- The state with the host's side of an edge done. -/
def clockHost (accepted : Bool) (s : State) : State := s.setHost (s.host.afterEdge accepted)

/-- A reset edge (rule R230): every field takes its reset value, whatever the CORE was doing; the parameters stay (rule R231). -/
def resetEdge (s : State) : State := State.resetWith s.cfg (s.host.afterEdge false) s.freeCount

/-- A command placed so that the very next edge accepts it (log 9): `rst` low at that edge, the command ahead of everything the
host will present, and the CORE not busy, without which nothing is accepted (rule R70). -/
def placeCommand (word data : Word) (s : State) : State :=
  (s.setHost { rstWire := false :: s.host.rstWire, queue := .command word data :: s.host.queue }).setBusy false

/-- The same from the host's number: bits 31..0 are `cmd_word`, bits 63..32 are `cmd_data`. -/
def placeTableWord (nbits w : Nat) (s : State) : State :=
  let bits := w % 2 ^ nbits
  placeCommand (BitVec.ofNat 32 bits) (BitVec.ofNat 32 (bits / 2 ^ 32)) s

end Sys2Proof.Machine
end

