-- ==== Sys2Proof/Machine/Step.lean ====
section
/-! DEFINITION. One step is one rising edge of `clk` (rule R72; log 1). -/

namespace Sys2Proof.Machine

/-- `Execute(w, DATA)` (rule R160): the accepted word is decoded and its command, or the illegal word, is executed. -/
def acceptCommand (word data : Word) (s : State) : Host.Outcome State Fault Refusal :=
  match decode word data with
  | .instr i => exec i s
  | .illegal why => execIllegal why s

/-- One rising edge: reset, a busy edge, an idle edge, or the acceptance of one command. The host's side of the edge is done
first; no command reads or writes it. -/
def step (s : State) : Host.Outcome State Fault Refusal :=
  match edgeEvent s with
  | .reset => .next (resetEdge s)
  | .busy => .next (busyEdge (clockHost false s))
  | .idle => .next (clockHost false s)
  | .accept word data => acceptCommand word data (clockHost true s)

/-- The instruction of the host's number placed so that the very next step runs it (log 9). -/
def State.withFetchWord (s : State) (nbits w : Nat) : State := placeTableWord nbits w s

end Sys2Proof.Machine
end

