-- ==== Sys2Proof/Machine/ReadPort.lean ====
section
/-! DEFINITION. The read port (rule R56, rule R71): combinational views of the state, without side effect. `rd_addr` is an
argument, not state (log 11). -/

namespace Sys2Proof.Machine

/-- STATUS (rule R37), from bit 31 down to bit 0. Reserved bits read 0. -/
def statusWord (s : State) : Word :=
  (0#5 ++ BitVec.ofBool s.cfg.counterCarry64 ++ BitVec.ofBool s.cfg.blockOnly ++ BitVec.ofBool s.cfg.strict
    ++ 0#5 ++ BitVec.ofBool s.errs ++ s.errc.code ++ 0#1 ++ BitVec.ofNat 7 s.bufLen.val
    ++ 0#3 ++ BitVec.ofBool s.f1 ++ BitVec.ofBool s.f0 ++ BitVec.ofBool s.busy ++ s.fsm.code : BitVec 32)

/-- `DIGEST_k` (rule R39): the chaining word when `fsm = FINAL` and `busy = 0`, else 0. -/
def digestWord (s : State) (k : Fin 8) : Word :=
  if s.fsm = .final ∧ s.busy = false then s.chain[k] else 0x00000000

/-- The read-port registers by name (rule R56). -/
inductive ReadName where
  | digest (k : Fin 8)
  | status
  | counterLo
  | counterHi
  deriving DecidableEq, Repr

/-- The address of a read-port register (rule R56). -/
def ReadName.addr : ReadName → BitVec 4
  | .digest k => BitVec.ofNat 4 k.val
  | .status => 8
  | .counterLo => 9
  | .counterHi => 10

/-- `rd_data` for `rd_addr` (rule R56); the reserved addresses 11..15 read 0 (rule R57). -/
def readPort (s : State) (addr : BitVec 4) : Word :=
  if h : addr.toNat < 8 then digestWord s ⟨addr.toNat, h⟩
  else if addr = 8 then statusWord s
  else if addr = 9 then s.tLo
  else if addr = 10 then s.tHi
  else 0x00000000

/-- The digest byte string `D[0..31]` (rule R58): DIGEST0..7, each word little-endian. -/
def digestBytes (s : State) : List Byte := (List.finRange 8).flatMap fun k => store32le (digestWord s k)

end Sys2Proof.Machine
end

