-- ==== Sys2Proof/Machine/HostProgram.lean ====
section
/-! DEFINITION. The host's side as program text: the pseudo-instructions UPDATE_BYTES, HASH and HASH_BLOCKS (rule R86, rule
R87), the host actions READ and WAIT (rule R84), and the collapse of the busy interval (rule R248). None of it is a command of
the CORE. -/

namespace Sys2Proof.Machine

/-! ### The collapsed busy interval -/

/-- The state when the compression in progress, if any, has completed (rule R248): what the completion edge leaves. -/
def collapse (s : State) : State := if s.busy then completeCompress s else s

/-- The next state with its busy interval collapsed; a fault or a refusal stays. -/
def collapseOutcome : Host.Outcome State Fault Refusal → Host.Outcome State Fault Refusal
  | .next s => .next (collapse s)
  | .fault reason => .fault reason
  | .refused reason => .refused reason

/-- A command and the compression it starts, taken together (rule R248). -/
def execCollapsed (i : Instr) (s : State) : Host.Outcome State Fault Refusal := collapseOutcome (exec i s)

/-- Commands in the order they are accepted (rule R62), each with its busy interval collapsed, to the first stop. No reset comes
between them: DESIGN CHOICE (log 24). -/
def execAll : List Instr → State → Host.Outcome State Fault Refusal
  | [], s => .next s
  | i :: rest, s =>
    match execCollapsed i s with
    | .next t => execAll rest t
    | .fault reason => .fault reason
    | .refused reason => .refused reason

/-! ### Pseudo-instructions -/

/-- The data word of up to four bytes: byte 0 in bits 7:0, zeros above (rule R86). -/
def packBytes (bytes : List Byte) : Word :=
  word32le (bytes.getD 0 0) (bytes.getD 1 0) (bytes.getD 2 0) (bytes.getD 3 0)

/-- `UPDATE_BYTES` (rule R86): UPDATE.4 for every four bytes, then one UPDATE of the one to three left, if any. -/
def updateBytes : List Byte → List Instr
  | b0 :: b1 :: b2 :: b3 :: rest => .update 4 (packBytes [b0, b1, b2, b3]) :: updateBytes rest
  | [] => []
  | tail => [.update tail.length (packBytes tail)]

/-- What a host does in program text: a command, or an action on the read port (rule R84). -/
inductive HostAction where
  | command (i : Instr)
  | read (reg : ReadName)
  | wait
  deriving DecidableEq, Repr

/-- `READ DIGEST0 .. READ DIGEST7`. -/
def readDigest : List HostAction := (List.finRange 8).map fun k => .read (.digest k)

/-- `HASH` (rule R87): INIT, UPDATE_BYTES, FINAL, WAIT, and the eight reads of the digest. -/
def hashProgram (bytes : List Byte) : List HostAction :=
  (Instr.init :: (updateBytes bytes ++ [Instr.final])).map .command ++ .wait :: readDigest

/-- `HASH_BLOCKS k` (rule R87): `HASH` of the `64k` bytes given. -/
def hashBlocks (blocks : Nat) (bytes : List Byte) : List HostAction := hashProgram (bytes.take (64 * blocks))

/-! ### Host actions on the CORE -/

/-- Busy edges until the CORE is not busy, at most the number given (rule R64, rule R84). DESIGN CHOICE (log 24): `rst` is low at
each of them, whatever `host.rstWire` holds, and the host's lists do not move. -/
def waitReady : Nat → State → State
  | 0, s => s
  | n + 1, s => if s.busy then waitReady n (busyEdge s) else s

/-- `WAIT` (rule R84): the cycles that remain are enough for every state a run reaches (rule R245). -/
def waitAction (s : State) : State := waitReady (max 1 s.hidden.cyc) s

/-- A host program on the CORE (log 23): a command waits for the handshake and is then executed, READ appends the value of
the register, WAIT stalls until `busy = 0`. The answer is the state left and the values read, in order. DESIGN CHOICE (log 24):
program text has no reset action, and the whole program runs with `rst` low; `host.rstWire` and `host.queue` are neither read nor
moved, since the text is what the host presents. -/
def runHost : List HostAction → State → List Word → Host.Outcome (State × List Word) Fault Refusal
  | [], s, reads => .next (s, reads)
  | .command i :: rest, s, reads =>
    match exec i (waitAction s) with
    | .next t => runHost rest t reads
    | .fault reason => .fault reason
    | .refused reason => .refused reason
  | .read reg :: rest, s, reads => runHost rest s (reads ++ [readPort s reg.addr])
  | .wait :: rest, s, reads => runHost rest (waitAction s) reads

end Sys2Proof.Machine
end

