-- ==== Sys2Proof/Machine/Reference.lean ====
section
/-! DEFINITION. What the rules about whole byte streams compare the CORE with: the hash of a byte string as rule R174 and rule
R180 describe it, and the source's chunked update (rule R173). Nothing here is part of the CORE's step. -/

namespace Sys2Proof.Machine

/-! ### The hash of a byte string -/

/-- Message word `i` of block `j` of the stream, bytes past its end read as zero. -/
def streamMessage (bytes : List Byte) (j : Nat) : Vector Word 16 :=
  Vector.ofFn fun i : Fin 16 =>
    let at0 := 64 * j + 4 * i.val
    word32le (bytes.getD at0 0) (bytes.getD (at0 + 1) 0) (bytes.getD (at0 + 2) 0) (bytes.getD (at0 + 3) 0)

/-- The counter's low half when `n` bytes have been counted (rule R25). -/
def countLo (n : Nat) : Word := BitVec.ofNat 32 n

/-- The counter's high half when `n` bytes have been counted from 0 (rule R25). -/
def countHi (carry : Bool) (n : Nat) : Word := if carry then BitVec.ofNat 32 (n / 2 ^ 32) else 0

/-- The chaining value when the first `j` blocks have been compressed as non-final blocks (rule R173, rule R174). -/
def streamChain (carry : Bool) (bytes : List Byte) : Nat → Vector Word 8
  | 0 => initChain
  | j + 1 =>
    compressWords (streamChain carry bytes j) (streamMessage bytes j) (countLo (64 * (j + 1)))
      (countHi carry (64 * (j + 1))) false false

/-- `ceil(T / 64) - 1`, and 0 for `T = 0`: the compressions that UPDATE starts (rule R174). -/
def interiorBlocks (total : Nat) : Nat := (total - 1) / 64

/-- The chaining value after FINAL: the last block, zero-padded, with the counter at the total (rule R177, rule R180). -/
def streamDigest (carry : Bool) (bytes : List Byte) : Vector Word 8 :=
  let q := interiorBlocks bytes.length
  compressWords (streamChain carry bytes q) (streamMessage bytes q) (countLo bytes.length) (countHi carry bytes.length)
    true lastNode

/-- The bytes that a command passes: those of an UPDATE, none of another command (rule R76, rule R161). -/
def Instr.passed : Instr → List Byte
  | .nop => []
  | .init => []
  | .update nb data => dataBytes nb data
  | .final => []

/-- A command that may stand between INIT and FINAL: a well-formed UPDATE, or NOP, the empty update (rule R75, rule R161). -/
def Instr.isFeed : Instr → Bool
  | .nop => true
  | .init => false
  | .update nb data => (Instr.update nb data).wellFormed
  | .final => false

/-- The bytes that a list of commands passes, in order. -/
def passedBytes (cmds : List Instr) : List Byte := cmds.flatMap Instr.passed

/-! ### The source's chunked update (rule R173) -/

/-- Copy bytes into the buffer from `buf_len` on, with `buf_len` growing by their number; used with at most `64 - buf_len`. -/
def copyIn : List Byte → State → State
  | [], s => s
  | b :: bytes, s => copyIn bytes (storeByte b s)

/-- Count and compress the buffer as a non-final block and empty it, the compression's result taken at once (rule R248). -/
def compressBuffer (s : State) : State := collapse ((startCompress (counterAdd 64 s)).setBufLen 0)

/-- Count and compress 64 bytes straight from the input, the buffer's bytes untouched. -/
def compressDirect (block : List Byte) (s : State) : State :=
  let t := counterAdd 64 s
  t.setChain (compressWords t.chain (streamMessage block 0) t.tLo t.tHi t.f0 t.f1)

/-- "while more than 64 bytes of input remain" compress the next 64, then copy the tail; the fuel is the input's length. -/
def sourceLoop : Nat → List Byte → State → State
  | 0, bytes, s => copyIn bytes s
  | fuel + 1, bytes, s =>
    if 64 < bytes.length then sourceLoop fuel (bytes.drop 64) (compressDirect (bytes.take 64) s)
    else copyIn bytes s

/-- The source's `update(bytes)` with `fill = 64 - buffer_len`, as rule R173 describes it. -/
def sourceUpdate (bytes : List Byte) (s : State) : State :=
  let fill := 64 - s.bufLen.val
  if bytes.length ≤ fill then copyIn bytes s
  else sourceLoop bytes.length (bytes.drop fill) (compressBuffer (copyIn (bytes.take fill) s))

/-- AppendByte on each byte in order (rule R171), each with its busy interval collapsed (rule R248). -/
def appendCollapsed : List Byte → State → State
  | [], s => s
  | b :: bytes, s => appendCollapsed bytes (collapse (appendByte b s))

end Sys2Proof.Machine
end

