-- ==== Sys2Proof/Safety.lean ====
section
/-! DEFINITION. What counts as a sound state of the CORE and as the same visible state, in the terms the statements use. -/

namespace Sys2Proof.Machine

/-- The invariant of the CORE: what the rules say holds in every state a run reaches. -/
structure State.Inv (s : State) : Prop where
  /-- `COMPRESS_CYCLES` is at least 1 (rule R7). -/
  paramsValid : s.cfg.valid
  /-- The buffer memory is in its canonical form (log 12). -/
  bufWf : Memory.wf s.buf = true
  /-- `f1` is always 0 (rule R29). -/
  nodeFlag : s.f1 = false
  /-- `f0` is 1 exactly from FINAL on (rule R28). -/
  lastFlag : s.f0 = true ↔ s.fsm = .final
  /-- An error sets the sticky bit, and what clears the bit clears the code (rule R32, rule R33). -/
  errSticky : s.errc ≠ .ok → s.errs = true
  /-- Before the first INIT everything is as reset left it (rule R40, rule R179). -/
  emptyClean : s.fsm = .empty → s.chain = Vector.replicate 8 0 ∧ s.tLo = 0 ∧ s.tHi = 0 ∧ s.buf = [] ∧ s.bufLen = 0 ∧ s.busy = false
  /-- Without `COUNTER_CARRY64` the high half stays 0 (rule R25). -/
  noCarry : s.cfg.counterCarry64 = false → s.tHi = 0
  /-- In ACCUM only whole blocks have been counted (rule R26). -/
  countsBlocks : s.fsm = .accum → s.tLo.toNat % 64 = 0
  /-- In ACCUM the buffer is empty only if no byte has been passed (rule R31). -/
  emptyBuffer : s.fsm = .accum → s.bufLen = 0 → s.tLo = 0 ∧ s.tHi = 0
  /-- After FINAL the count ends with the last block's bytes (rule R26). -/
  finalCount : s.fsm = .final → s.tLo.toNat % 64 = s.bufLen.val % 64
  /-- After FINAL the buffer holds the zero-padded last block (rule R177). -/
  finalPadded : s.fsm = .final → ∀ a : Fin 64, s.bufLen.val ≤ a.val → Memory.read s.buf a = 0
  /-- With `BLOCK_ONLY`, FINAL is reached only with a whole number of blocks (rule R210). -/
  finalAligned : s.fsm = .final → s.cfg.blockOnly = true → s.bufLen = 0 ∨ s.bufLen = 64
  /-- The cycles that remain of a compression (rule R245). -/
  busyCycles : s.busy = true → 1 ≤ s.hidden.cyc ∧ s.hidden.cyc ≤ s.cfg.compressCycles
  /-- An UPDATE that starts a compression leaves one to four bytes in the buffer (rule R170, rule R171). -/
  busyShort : s.busy = true → s.fsm = .accum → 1 ≤ s.bufLen.val ∧ s.bufLen.val ≤ 4
  /-- The latched chaining value is `chain`, which no command changes while busy (rule R35). -/
  busyChain : s.busy = true → s.hidden.hIn = s.chain
  /-- The final compression works on the padded block (rule R177). -/
  busyFinal : s.busy = true → s.fsm = .final → s.hidden.m = loadMessage s.buf
  /-- The rest of the schedule leads to the pipeline's result on the latched words (rule R130, rule R142). -/
  busyWork : s.busy = true →
    s.hidden.finishWork = pipeline s.hidden.m (initWork s.chain s.tLo s.tHi s.f0 s.f1)

/-- Two states that no read, now or later, tells apart: they may differ in the hidden fields between compressions (rule R35),
in how far the sequencer is (rule R131), in the stale bytes of the buffer (rule R30) and in the free values to come. -/
structure State.SameVisible (s t : State) : Prop where
  cfg : s.cfg = t.cfg
  fsm : s.fsm = t.fsm
  chain : s.chain = t.chain
  tLo : s.tLo = t.tLo
  tHi : s.tHi = t.tHi
  f0 : s.f0 = t.f0
  f1 : s.f1 = t.f1
  bufLen : s.bufLen = t.bufLen
  errc : s.errc = t.errc
  errs : s.errs = t.errs
  busy : s.busy = t.busy
  host : s.host = t.host
  validBytes : ∀ a : Fin 64, a.val < s.bufLen.val → Memory.read s.buf a = Memory.read t.buf a
  cycles : s.busy = true → s.hidden.cyc = t.hidden.cyc
  result : s.busy = true →
    foldState s.hidden.hIn s.hidden.finishWork = foldState t.hidden.hIn t.hidden.finishWork

/-- Two outcomes of one kind: next states that no read tells apart, or the same stop. -/
def SameOutcome : Host.Outcome State Fault Refusal → Host.Outcome State Fault Refusal → Prop
  | .next s, .next t => s.SameVisible t
  | .fault r, .fault r' => r = r'
  | .refused r, .refused r' => r = r'
  | _, _ => False

/-- The outcome is a next state. -/
def Runs (o : Host.Outcome State Fault Refusal) : Prop := ∃ t, o = .next t

/-- The outcome is a next state with this `fsm` and this result code (the cells of the table of rule R179). -/
def LeadsTo (o : Host.Outcome State Fault Refusal) (f : Fsm) (code : ErrCode) : Prop :=
  ∃ t, o = .next t ∧ t.fsm = f ∧ t.errc = code

/-- The coming edge accepts the command `i` (rule R70). -/
def Accepts (s : State) (i : Instr) : Prop :=
  ∃ word data, edgeEvent s = .accept word data ∧ decode word data = .instr i

/-- A next state changed by `f`; a stop stays. -/
def mapNext (f : State → State) : Host.Outcome State Fault Refusal → Host.Outcome State Fault Refusal
  | .next s => .next (f s)
  | .fault reason => .fault reason
  | .refused reason => .refused reason

end Sys2Proof.Machine
end

