-- ==== Sys2Proof/Certificates/Slice0/Obligations.lean ====
section
/-! DEFINITION. The statements for the provers. Each docstring names the rule of spec/ the statement formalises, or says what
it rests on. Where a statement needs the invariant or the canonical form of the buffer as a premise, `StepKeepsInvariant`,
`InvariantHoldsAtReset` and `EveryStepKeepsBufferCanonical` are the statements about that premise. -/

open Sys2Proof Sys2Proof.Machine

/-! ### Encoding -/

/-- Rule R79, rule R83: decoding what the encoder gives is the command again, with every value of NB and DATA; for a command
without operand, whatever DATA is (rule R76). -/
def Obligations.DecodeOfEncodeIsTheCommand : Prop :=
  ∀ (i : Instr) (data : Word), i.wellFormed = true →
    ((∃ nb x, i = .update nb x) → data = (encode i).2) → decode (encode i).1 data = .instr i

/-- Rule R75, rule R79: what the decoder accepts is well-formed, and it is the encoding of what it decodes to; no bit of the
word, and no bit of DATA for UPDATE, is dropped. -/
def Obligations.EncodeOfDecodeIsTheWord : Prop :=
  ∀ (w data : Word) (i : Instr), decode w data = .instr i →
    i.wellFormed = true ∧ (encode i).1 = w ∧ (∀ nb x, i = .update nb x → x = data)

/-- Rule R77: a word is legal exactly when its fields satisfy the formula, and an accepted word that is not legal fails with
ILLEGAL_COMMAND and has no other effect. -/
def Obligations.LegalWordsAreThoseOfTheFormula : Prop :=
  ∀ (w data : Word) (s : State),
    let isLegal : Prop :=
      (w.toNat % 16 = 0 ∨ w.toNat % 16 = 1 ∨ w.toNat % 16 = 2 ∨ w.toNat % 16 = 3) ∧ w.toNat / 2 ^ 4 % 16 = 0 ∧
        w.toNat / 2 ^ 10 = 0 ∧ (w.toNat % 16 = 2 ∨ w.toNat / 2 ^ 8 % 4 = 0)
    ((∃ i, decode w data = .instr i) ↔ isLegal) ∧
      (¬isLegal → acceptCommand w data s = .next { s with errc := .illegalCommand, errs := true })

/-- Rule R78: at most one row of the opcode map selects a word, and a row selects a word exactly when the word decodes to a
command of that row. -/
def Obligations.OpcodeMapSelectsOneRow : Prop :=
  ∀ (w data : Word),
    (∀ r1 ∈ opcodeMap, ∀ r2 ∈ opcodeMap, r1.selects w = true → r2.selects w = true → r1 = r2) ∧
      ∀ r ∈ opcodeMap, r.selects w = true ↔ ∃ i, decode w data = .instr i ∧ i.row = r

/-- Rule R83, rule R85: the worked encodings and the worked illegal words. -/
def Obligations.WorkedEncodingsDecode : Prop :=
  decode 0x00000000 0 = .instr .nop ∧ decode 0x00000001 0 = .instr .init ∧ decode 0x00000003 0 = .instr .final ∧
    decode 0x00000302 0x64636261 = .instr (.update 4 0x64636261) ∧
    decode 0x00000002 0x00000041 = .instr (.update 1 0x00000041) ∧
    decode 0x00000102 0 = .instr (.update 2 0) ∧ decode 0x00000202 0 = .instr (.update 3 0) ∧
    (decode 0x00000103 0).toOption = none ∧ (decode 0x00000004 0).toOption = none ∧ (decode 0x00000012 0).toOption = none

/-! ### The edge: acceptance, the busy port, reset -/

/-- Rule R70, rule R160: at an edge with `rst` low, `busy` low and a command presented whose word decodes to `i`, the step is
`exec i`, after the host's side of the edge: the next level of `rst`, and the command withdrawn (log 8). -/
def Obligations.StepRunsTheDecodedCommand : Prop :=
  ∀ (s : State) (w data : Word) (rest : List Presented) (i : Instr),
    rstNow s = false → s.busy = false → s.host.queue = .command w data :: rest → decode w data = .instr i →
      i.wellFormed = true ∧
        step s = exec i { s with host := { rstWire := s.host.rstWire.tail, queue := rest } }

/-- Rule R207: an accepted word that is not legal raises ILLEGAL_COMMAND, in every `fsm` state and whatever `STRICT` is; with
the host's side of the edge (log 8) nothing else changes (rule R203). -/
def Obligations.StepRaisesIllegalCommand : Prop :=
  ∀ (s : State) (w data : Word) (rest : List Presented),
    rstNow s = false → s.busy = false → s.host.queue = .command w data :: rest → legal w = false →
      step s = .next { s with
        host := { rstWire := s.host.rstWire.tail, queue := rest }, errc := .illegalCommand, errs := true }

/-- Rule R70: a command is accepted at an edge exactly when it is presented with `rst = 0` and `cmd_ready = 1`, and
`cmd_ready = 1` exactly when `rst = 0` and `busy = 0`. -/
def Obligations.AcceptanceNeedsReady : Prop :=
  ∀ (s : State) (w data : Word),
    (edgeEvent s = .accept w data ↔ cmdReady s = true ∧ ∃ rest, s.host.queue = .command w data :: rest) ∧
      (cmdReady s = true ↔ rstNow s = false ∧ s.busy = false)

/-- Rule R34, rule R70, rule R240 item 1: while `busy = 1` a presented command is neither lost nor executed: the edge changes
only `chain`, `busy`, the hidden fields and the host's `rst`; the command stays presented (log 8). -/
def Obligations.BusyEdgeHoldsTheCommand : Prop :=
  ∀ (s : State) (w data : Word) (rest : List Presented),
    rstNow s = false → s.busy = true → s.host.queue = .command w data :: rest →
      ∃ t, step s = .next t ∧ t.host = { rstWire := s.host.rstWire.tail, queue := .command w data :: rest } ∧
        t.cfg = s.cfg ∧ t.fsm = s.fsm ∧ t.tLo = s.tLo ∧ t.tHi = s.tHi ∧ t.f0 = s.f0 ∧ t.f1 = s.f1 ∧ t.bufLen = s.bufLen ∧
        t.errc = s.errc ∧ t.errs = s.errs ∧ ∀ a, Memory.read t.buf a = Memory.read s.buf a

/-- Rule R230, rule R40: at an edge with `rst = 1` every field takes its reset value, whatever the CORE was doing; the
parameters stay (rule R231), and a presented command is not accepted but held (rule R240 item 1, log 8). -/
def Obligations.ResetEdgeGivesTheResetState : Prop :=
  ∀ (s : State), rstNow s = true →
    ∃ t, step s = .next t ∧ t.fsm = .empty ∧ (∀ k : Fin 8, t.chain[k] = 0x00000000) ∧ t.tLo = 0 ∧ t.tHi = 0 ∧ t.f0 = false ∧
      t.f1 = false ∧ (∀ a, Memory.read t.buf a = 0x00) ∧ t.bufLen = 0 ∧ t.errc = .ok ∧ t.errs = false ∧ t.busy = false ∧
      t.cfg = s.cfg ∧ t.host.rstWire = s.host.rstWire.tail ∧
      (∀ w data rest, s.host.queue = .command w data :: rest → t.host.queue = s.host.queue)

/-- Rule R40: the reset values, for every setting of the parameters, and STATUS after reset, which shows the parameters in bits
26:24 and is 0 elsewhere. The hidden fields, which the rule leaves unspecified, are not mentioned. -/
def Obligations.ResetValues : Prop :=
  ∀ (p : Params) (host : HostPort) (n : Nat),
    let s := State.resetWith p host n
    s.fsm = .empty ∧ (∀ k : Fin 8, s.chain[k] = 0x00000000) ∧ s.tLo = 0x00000000 ∧ s.tHi = 0x00000000 ∧ s.f0 = false ∧
      s.f1 = false ∧ (∀ a, Memory.read s.buf a = 0x00) ∧ s.bufLen = 0 ∧ s.errc = .ok ∧ s.errs = false ∧ s.busy = false ∧
      (statusWord s).toNat =
        2 ^ 24 * p.strict.toNat + 2 ^ 25 * p.blockOnly.toNat + 2 ^ 26 * p.counterCarry64.toNat

/-! ### The commands -/

/-- Rule R161: NOP writes `errc` with 0 and changes nothing else, in every `fsm` state; its word is 0x00000000, and DATA is
ignored. -/
def Obligations.NopClearsTheResultCode : Prop :=
  ∀ (s : State) (data : Word),
    exec .nop s = .next { s with errc := .ok } ∧ acceptCommand 0x00000000 data s = .next { s with errc := .ok }

/-- Rule R164: INIT, in every `fsm` state, leaves the seeded chaining value, zero counter, flags, buffer and length, ACCUM, and
no error; it writes no other field (the parameters, `busy`, the hidden fields and the host's side stay). -/
def Obligations.InitStartsAComputation : Prop :=
  ∀ (s : State), ∃ t, exec .init s = .next t ∧
    t.chain = #v[0x6B08E647, 0xBB67AE85, 0x3C6EF372, 0xA54FF53A, 0x510E527F, 0x9B05688C, 0x1F83D9AB, 0x5BE0CD19] ∧
    t.tLo = 0 ∧ t.tHi = 0 ∧ t.f0 = false ∧ t.f1 = false ∧ (∀ a, Memory.read t.buf a = 0x00) ∧ t.bufLen = 0 ∧
    t.fsm = .accum ∧ t.errc = .ok ∧ t.errs = false ∧
    t.cfg = s.cfg ∧ t.busy = s.busy ∧ t.hidden = s.hidden ∧ t.host = s.host ∧ t.freeCount = s.freeCount

/-- Rule R170, rule R171, rule R172: an UPDATE in ACCUM whose bytes fit the buffer stores byte `k` of DATA at address
`buf_len + k` and adds NB to `buf_len`; every other byte of the buffer (a stale one too, log 16) and every other field but
`errc` is unchanged. -/
def Obligations.UpdateThatFitsStoresItsBytes : Prop :=
  ∀ (s : State) (nb : Nat) (data : Word),
    s.fsm = .accum → Memory.wf s.buf = true → 1 ≤ nb → nb ≤ 4 → s.bufLen.val + nb ≤ 64 →
      ∃ mem : Memory,
        exec (.update nb data) s =
          .next { s with buf := mem, bufLen := Fin.ofNat 65 (s.bufLen.val + nb), errc := .ok } ∧
        ∀ a : Fin 64, Memory.read mem a =
          if s.bufLen.val ≤ a.val ∧ a.val < s.bufLen.val + nb then data.extractLsb' (8 * (a.val - s.bufLen.val)) 8
          else Memory.read s.buf a

/-- Rule R170, rule R171, rule R141, rule R245: an UPDATE in ACCUM that finds the buffer full at one of its bytes fills the
buffer (`full`), counts 64, latches the block with the chaining value and goes busy for COMPRESS_CYCLES; the bytes from that
one on are stored from address 0. `chain` is not written yet; every other byte (a stale one too, log 16) and field is
unchanged. -/
def Obligations.UpdateThatFindsTheBufferFullStartsACompression : Prop :=
  ∀ (s : State) (nb : Nat) (data : Word),
    s.fsm = .accum → Memory.wf s.buf = true → 1 ≤ nb → nb ≤ 4 → 64 < s.bufLen.val + nb →
      ∃ (full mem : Memory) (hi : Word),
        (∀ a : Fin 64, Memory.read full a =
          if s.bufLen.val ≤ a.val then data.extractLsb' (8 * (a.val - s.bufLen.val)) 8 else Memory.read s.buf a) ∧
        (∀ a : Fin 64, Memory.read mem a =
          if a.val < s.bufLen.val + nb - 64 then data.extractLsb' (8 * (a.val + 64 - s.bufLen.val)) 8
          else Memory.read full a) ∧
        hi = (if s.cfg.counterCarry64 = true
          then BitVec.ofNat 32 ((s.tHi.toNat * 2 ^ 32 + s.tLo.toNat + 64) / 2 ^ 32) else s.tHi) ∧
        exec (.update nb data) s =
          .next { s with
            tLo := s.tLo + 64, tHi := hi, buf := mem, bufLen := Fin.ofNat 65 (s.bufLen.val + nb - 64), errc := .ok
            busy := true
            hidden :=
              { hIn := s.chain, m := loadMessage full, v := initWork s.chain (s.tLo + 64) hi s.f0 s.f1, rnd := 0, stp := 0
                cyc := s.cfg.compressCycles } }

/-- Rule R175, rule R177: FINAL in ACCUM, with no length error, adds `buf_len` to the counter, sets `f0`, clears `f1`,
zero-pads the buffer from `buf_len`, starts the compression of the padded block and enters FINAL; `buf_len` keeps its value,
`chain` is not written yet, and every other byte and field but `errc` is unchanged. -/
def Obligations.FinalStartsTheLastCompression : Prop :=
  ∀ (s : State),
    s.fsm = .accum → Memory.wf s.buf = true → (s.cfg.blockOnly = true → s.bufLen = 0 ∨ s.bufLen = 64) →
      ∃ (mem : Memory) (hi : Word),
        (∀ a : Fin 64, Memory.read mem a = if s.bufLen.val ≤ a.val then 0x00 else Memory.read s.buf a) ∧
        hi = (if s.cfg.counterCarry64 = true
          then BitVec.ofNat 32 ((s.tHi.toNat * 2 ^ 32 + s.tLo.toNat + s.bufLen.val) / 2 ^ 32) else s.tHi) ∧
        exec .final s =
          .next { s with
            fsm := .final, tLo := s.tLo + BitVec.ofNat 32 s.bufLen.val, tHi := hi, f0 := true, f1 := false, buf := mem
            errc := .ok, busy := true
            hidden :=
              { hIn := s.chain, m := loadMessage mem
                v := initWork s.chain (s.tLo + BitVec.ofNat 32 s.bufLen.val) hi true false, rnd := 0, stp := 0
                cyc := s.cfg.compressCycles } }

/-- UPDATE and FINAL outside ACCUM. With `STRICT = 1` MISUSED_STATE is raised (rule R206) and nothing else changes (rule R203);
with `STRICT = 0` the model faults with the reason that rule R205, rule R170 and rule R175 name (log 10, DEDUCED). -/
def Obligations.MisuseOutsideAccum : Prop :=
  ∀ (s : State) (nb : Nat) (data : Word), s.fsm = .empty ∨ s.fsm = .final →
    (s.cfg.strict = true →
      exec (.update nb data) s = .next { s with errc := .misusedState, errs := true } ∧
        exec .final s = .next { s with errc := .misusedState, errs := true }) ∧
    (s.cfg.strict = false →
      exec (.update nb data) s = .fault .updateOutsideAccum ∧ exec .final s = .fault .finalOutsideAccum)

/-- Rule R175, rule R176, rule R205: FINAL in ACCUM in block-only mode with `buf_len` not 0 and not 64. With `STRICT = 1`
INVALID_ARGUMENT is raised and nothing else changes; with `STRICT = 0` the model faults with UNALIGNED_LENGTH. -/
def Obligations.UnalignedFinalInBlockOnlyMode : Prop :=
  ∀ (s : State), s.fsm = .accum → s.cfg.blockOnly = true → s.bufLen ≠ 0 → s.bufLen ≠ 64 →
    (s.cfg.strict = true → exec .final s = .next { s with errc := .invalidArgument, errs := true }) ∧
    (s.cfg.strict = false → exec .final s = .fault .unalignedLength)

/-- Rule R179: the transition table, every cell: the next `fsm` and the result code of each command in each state. -/
def Obligations.TransitionTable : Prop :=
  ∀ (s : State) (nb : Nat) (data w : Word),
    LeadsTo (exec .nop s) s.fsm .ok ∧ LeadsTo (exec .init s) .accum .ok ∧
    (legal w = false → LeadsTo (acceptCommand w data s) s.fsm .illegalCommand) ∧
    (s.fsm = .accum → LeadsTo (exec (.update nb data) s) .accum .ok) ∧
    (s.fsm = .accum →
      let aligned := s.cfg.blockOnly = true → s.bufLen = 0 ∨ s.bufLen = 64
      (aligned → LeadsTo (exec .final s) .final .ok) ∧
      (¬aligned → s.cfg.strict = true → LeadsTo (exec .final s) .accum .invalidArgument) ∧
      (¬aligned → s.cfg.strict = false → exec .final s = .fault .unalignedLength)) ∧
    (s.fsm ≠ .accum → s.cfg.strict = true →
      LeadsTo (exec (.update nb data) s) s.fsm .misusedState ∧ LeadsTo (exec .final s) s.fsm .misusedState) ∧
    (s.fsm ≠ .accum → s.cfg.strict = false →
      exec (.update nb data) s = .fault .updateOutsideAccum ∧ exec .final s = .fault .finalOutsideAccum)

/-- Rule R203: an accepted command that fails writes its code into `errc`, sets `errs`, and changes nothing else. -/
def Obligations.FailedCommandChangesOnlyTheErrorFields : Prop :=
  ∀ (w data : Word) (s t : State), acceptCommand w data s = .next t → t.errc ≠ .ok →
    t = { s with errc := t.errc, errs := true }

/-- Rule R32, rule R33: every accepted command writes `errc`; a failing one sets `errs`, a successful one leaves it, but for
INIT, which clears it. Over steps, reset clears `errs` too, and nothing else does. -/
def Obligations.ErrorFieldsOfEveryCommand : Prop :=
  (∀ (w data : Word) (s t : State), acceptCommand w data s = .next t →
    (t.errc ≠ .ok → t.errs = true) ∧
    (t.errc = .ok → decode w data ≠ .instr .init → t.errs = s.errs) ∧
    (decode w data = .instr .init → t.errc = .ok ∧ t.errs = false)) ∧
  (∀ (s t : State), step s = .next t →
    (rstNow s = true → t.errs = false) ∧ (s.errs = true → t.errs = false → rstNow s = true ∨ Accepts s .init))

/-- Rule R76: DATA bits above the bytes of an UPDATE are ignored, and so are all bits of DATA with every other word. -/
def Obligations.UnusedDataBitsAreIgnored : Prop :=
  ∀ (w d1 d2 : Word) (s : State),
    (w.toNat % 16 = 2 → ∀ k : Nat, k ≤ w.toNat / 2 ^ 8 % 4 → d1.extractLsb' (8 * k) 8 = d2.extractLsb' (8 * k) 8) →
      acceptCommand w d1 s = acceptCommand w d2 s

/-! ### The counter, the primitives and the mixing -/

/-- Rule R25: CounterAdd adds modulo 2^64 with `COUNTER_CARRY64`; without, the low half wraps and the high half stays. It
writes nothing else. While the sum is below 2^32 both settings give the same halves. -/
def Obligations.CounterAddCarriesOnlyWithTheParameter : Prop :=
  ∀ (s : State) (n : Nat), n ≤ 64 →
    ∃ lo hi, counterAdd n s = { s with tLo := lo, tHi := hi } ∧
      (s.cfg.counterCarry64 = true →
        hi.toNat * 2 ^ 32 + lo.toNat = (s.tHi.toNat * 2 ^ 32 + s.tLo.toNat + n) % 2 ^ 64) ∧
      (s.cfg.counterCarry64 = false → lo.toNat = (s.tLo.toNat + n) % 2 ^ 32 ∧ hi = s.tHi) ∧
      (s.tHi = 0 → s.tLo.toNat + n < 2 ^ 32 → lo.toNat = s.tLo.toNat + n ∧ hi = 0)

/-- Rule R103: `rotr(x, n)` by shifts, and bit by bit: bit `k` of it is bit `(k + n) mod 32` of `x`; zero and all ones are kept
by every amount; the amount 16 swaps the half-words; the rule's example. -/
def Obligations.RotationMovesEveryBit : Prop :=
  ∀ (x : Word) (n : Nat), 0 < n → n < 32 →
    rotr x n = (x >>> n) ||| (x <<< (32 - n)) ∧ (∀ k : Nat, k < 32 → (rotr x n).getLsbD k = x.getLsbD ((k + n) % 32)) ∧
      rotr 0 n = 0 ∧ rotr 0xFFFFFFFF n = 0xFFFFFFFF ∧
      (rotr x 16).toNat = x.toNat % 2 ^ 16 * 2 ^ 16 + x.toNat / 2 ^ 16 ∧ rotr 0x12345678 12 = 0x67812345

/-- Rule R102: writing the four bytes of a word to the buffer and loading them gives the word. Rule R53: every other byte of
the buffer is unchanged. The canonical form, as a premise and kept by the write, is the model's choice (log 12, DESIGN
CHOICE). -/
def Obligations.LoadAfterStoreGivesTheWord : Prop :=
  ∀ (mem : Memory) (w : Word) (a : Nat) (h4 : a + 4 ≤ 64) (hLen : a + (store32le w).length ≤ 64), Memory.wf mem = true →
    let stored := Memory.writeBytes mem a (store32le w) hLen
    load32le stored a h4 = w ∧ Memory.wf stored = true ∧
      ∀ c : Fin 64, (c.val < a ∨ a + 4 ≤ c.val) → Memory.read stored c = Memory.read mem c

/-- Rule R141, rule R55: byte `b` of message word `j` is the buffer byte at address `4j + b`. -/
def Obligations.MessageWordsAreLittleEndian : Prop :=
  ∀ (mem : Memory) (j : Fin 16) (b : Fin 4),
    (loadMessage mem)[j].extractLsb' (8 * b.val) 8 = Memory.read mem (Fin.ofNat 64 (4 * j.val + b.val))

/-- Rule R142: the working vector at compression start, word by word. -/
def Obligations.WorkingVectorSetup : Prop :=
  ∀ (chain : Vector Word 8) (lo hi : Word) (f0 f1 : Bool),
    let v := initWork chain lo hi f0 f1
    (∀ k : Fin 8, v[k.val] = chain[k]) ∧ (∀ k : Fin 4, v[k.val + 8] = iv[k.val]) ∧
      v[12] = 0x510E527F ^^^ lo ∧ v[13] = 0x9B05688C ^^^ hi ∧
      v[14] = (if f0 then 0xE07C2654 else 0x1F83D9AB) ∧ v[15] = (if f1 then 0xA41F32E6 else 0x5BE0CD19)

/-- Rule R121: the four indices of a step's quadruple are distinct, and G on it writes its four results to the four positions
and leaves every other word. -/
def Obligations.MixingWritesOnlyItsQuadruple : Prop :=
  ∀ (v : Vector Word 16) (i : Fin 8) (m1 m2 : Word) (k : Fin 16),
    let q := quadruple i
    let r := mixG { a := v[q.a], b := v[q.b], c := v[q.c], d := v[q.d] } m1 m2
    [q.a, q.b, q.c, q.d].Nodup ∧
      (mixAt v q m1 m2)[k] =
        if k = q.a then r.a else if k = q.b then r.b else if k = q.c then r.c else if k = q.d then r.d else v[k]

/-- Rule R124, rule R126, rule R127: the eight quadruples; every row of the schedule is a permutation of 0..15; the packed
schedule holds the first index in the high nibble and the second in the low one. The schedule's entries are the spec's own supply
(log 20, PRESUMED). -/
def Obligations.ScheduleTables : Prop :=
  ((List.finRange 8).map fun i => ((quadruple i).a, (quadruple i).b, (quadruple i).c, (quadruple i).d)) =
      [(0, 4, 8, 12), (1, 5, 9, 13), (2, 6, 10, 14), (3, 7, 11, 15), (0, 5, 10, 15), (1, 6, 11, 12), (2, 7, 8, 13),
        (3, 4, 9, 14)] ∧
    (∀ r : Fin 10, ∀ j : Fin 16, ∃ k : Fin 16, (sigma r)[k] = j) ∧
    (∀ r : Fin 10, ∀ i : Fin 8,
      (sigmaPacked r)[i].toNat = 16 * (firstIndex r i).val + (secondIndex r i).val)

/-- Rule R131: two column steps of a round commute, and so do two diagonal steps. -/
def Obligations.StepsOfOnePhaseCommute : Prop :=
  ∀ (m v : Vector Word 16) (r : Fin 10) (i j : Fin 8), i ≠ j → i.val / 4 = j.val / 4 →
    gStep m (gStep m v r i) r j = gStep m (gStep m v r j) r i

/-- Rule R130: the pipeline is the eighty G steps in the order (0,0), (0,1), ..., (9,7). -/
def Obligations.PipelineIsEightyStepsInOrder : Prop :=
  ∀ (m v : Vector Word 16),
    pipeline m v = (List.range 80).foldl (fun w k => gStep m w (Fin.ofNat 10 (k / 8)) (Fin.ofNat 8 (k % 8))) v

/-! ### The read port -/

/-- Rule R37: every field of STATUS, read at address 8, at its bits, and every reserved bit 0. -/
def Obligations.StatusLayout : Prop :=
  ∀ (s : State),
    let w := (readPort s 8).toNat
    w % 4 = (match s.fsm with | .empty => 0 | .accum => 1 | .final => 2) ∧
      w / 2 ^ 2 % 2 = s.busy.toNat ∧ w / 2 ^ 3 % 2 = s.f0.toNat ∧ w / 2 ^ 4 % 2 = s.f1.toNat ∧ w / 2 ^ 5 % 8 = 0 ∧
      w / 2 ^ 8 % 128 = s.bufLen.val ∧ w / 2 ^ 15 % 2 = 0 ∧
      w / 2 ^ 16 % 4 = (match s.errc with | .ok => 0 | .invalidArgument => 1 | .misusedState => 2 | .illegalCommand => 3) ∧
      w / 2 ^ 18 % 2 = s.errs.toNat ∧ w / 2 ^ 19 % 32 = 0 ∧ w / 2 ^ 24 % 2 = s.cfg.strict.toNat ∧
      w / 2 ^ 25 % 2 = s.cfg.blockOnly.toNat ∧ w / 2 ^ 26 % 2 = s.cfg.counterCarry64.toNat ∧ w / 2 ^ 27 = 0

/-- Rule R56, rule R38, rule R39, rule R57: what each of the sixteen read-port addresses reads. -/
def Obligations.ReadPortMap : Prop :=
  ∀ (s : State),
    (∀ k : Fin 8, readPort s (BitVec.ofNat 4 k.val) =
      if s.fsm = .final ∧ s.busy = false then s.chain[k] else 0x00000000) ∧
    readPort s 8 = statusWord s ∧ readPort s 9 = s.tLo ∧ readPort s 10 = s.tHi ∧
    ∀ a : BitVec 4, 11 ≤ a.toNat → readPort s a = 0x00000000

/-- Rule R58: byte `k` of the digest is byte `k mod 4` of `store32_le` of DIGEST word `k div 4`; after FINAL and not busy, that
is the byte of the chaining word. -/
def Obligations.DigestBytesAreLittleEndian : Prop :=
  ∀ (s : State) (k : Fin 32),
    let word : Fin 8 := ⟨k.val / 4, Nat.div_lt_of_lt_mul k.isLt⟩
    (digestBytes s).length = 32 ∧ (digestBytes s)[k.val]? = (store32le (digestWord s word))[k.val % 4]? ∧
      (s.fsm = .final → s.busy = false →
        (digestBytes s)[k.val]? = some ((s.chain[word] >>> (8 * (k.val % 4))).setWidth 8))

/-! ### The busy interval -/

/-- Rule R34: from a CORE that is not busy, exactly two commands raise `busy`: an UPDATE in ACCUM that finds the buffer full,
and a successful FINAL; then COMPRESS_CYCLES cycles remain (rule R245). -/
def Obligations.OnlyCompressionsRaiseBusy : Prop :=
  ∀ (i : Instr) (s t : State), s.busy = false → i.wellFormed = true → exec i s = .next t →
    (t.busy = true ↔
      s.fsm = .accum ∧
        ((∃ nb data, i = .update nb data ∧ 64 < s.bufLen.val + nb) ∨
          (i = .final ∧ (s.cfg.blockOnly = true → s.bufLen = 0 ∨ s.bufLen = 64)))) ∧
    (t.busy = true → t.hidden.cyc = s.cfg.compressCycles)

/-- Rule R245, rule R146: a compression with `cyc` cycles left completes at exactly the `cyc`-th edge, if `rst` stays low:
until then `busy = 1` and `chain` is unchanged; then `busy = 0` and `chain` is COMPRESS of the latched words. The other visible
fields do not change in between (rule R246). -/
def Obligations.CompressionCompletesOnTime : Prop :=
  ∀ (s : State), s.Inv → s.busy = true → (∀ k : Nat, k < s.hidden.cyc → s.host.rstWire.getD k false = false) →
    ∀ k : Nat, k ≤ s.hidden.cyc → ∃ t : State, Host.Core.run Sys2Proof.core k s = .next t ∧
      (k < s.hidden.cyc → t.busy = true ∧ t.chain = s.chain ∧ t.hidden.cyc = s.hidden.cyc - k) ∧
      (k = s.hidden.cyc →
        t.busy = false ∧ t.chain = compressWords s.chain s.hidden.m s.tLo s.tHi s.f0 s.f1) ∧
      t.cfg = s.cfg ∧ t.fsm = s.fsm ∧ t.tLo = s.tLo ∧ t.tHi = s.tHi ∧ t.f0 = s.f0 ∧ t.f1 = s.f1 ∧ t.buf = s.buf ∧
      t.bufLen = s.bufLen ∧ t.errc = s.errc ∧ t.errs = s.errs

/-- Rule R64, rule R70, rule R240 item 1: a command presented while a compression runs is accepted at the first edge after
its completion, with `rst` low throughout (log 8: the host holds it). -/
def Obligations.HeldCommandIsAcceptedAfterCompletion : Prop :=
  ∀ (s : State) (w data : Word) (rest : List Presented), s.Inv → s.busy = true → s.host.rstWire = [] →
    s.host.queue = .command w data :: rest →
      (∀ k : Nat, k < s.hidden.cyc → ∃ t : State, Host.Core.run Sys2Proof.core k s = .next t ∧ edgeEvent t = .busy) ∧
      ∃ t : State, Host.Core.run Sys2Proof.core s.hidden.cyc s = .next t ∧ edgeEvent t = .accept w data

/-- Rule R248, rule R245: an accepted command and the edges of the compression it starts lead to what the collapsed reading
gives, as far as any read tells. -/
def Obligations.CollapseAgreesWithTheEdges : Prop :=
  ∀ (s t : State) (w data : Word) (rest : List Presented) (i : Instr),
    s.Inv → s.busy = false → s.host.rstWire = [] → s.host.queue = .command w data :: rest → rest.head? ≠ some .idle →
      decode w data = .instr i → exec i s = .next t →
        ∃ u : State,
          Host.Core.run Sys2Proof.core (1 + (if t.busy = true then s.cfg.compressCycles else 0)) s = .next u ∧
          u.SameVisible { collapse t with host := { rstWire := [], queue := rest } }

/-- Rule R245, last sentence: no result depends on COMPRESS_CYCLES: with another value, the same commands, each with its busy
interval collapsed, lead to the same state but for that parameter, and to the same stop. -/
def Obligations.CyclesDoNotChangeResults : Prop :=
  ∀ (cmds : List Instr) (s : State) (c : Nat),
    execAll cmds { s with cfg := { s.cfg with compressCycles := c } } =
      mapNext (fun t => { t with cfg := { t.cfg with compressCycles := c } }) (execAll cmds s)

/-! ### The whole machine -/

/-- The invariant holds right after reset, for every legal setting of the parameters (rule R40). -/
def Obligations.InvariantHoldsAtReset : Prop :=
  ∀ (p : Params) (host : HostPort) (n : Nat), p.valid → (State.resetWith p host n).Inv

/-- Every step keeps the invariant. -/
def Obligations.StepKeepsInvariant : Prop :=
  ∀ (s t : State), s.Inv → step s = .next t → t.Inv

/-- Log 12: every step keeps the buffer's canonical form, from every state that has it. -/
def Obligations.EveryStepKeepsBufferCanonical : Prop :=
  ∀ (s t : State), Memory.wf s.buf = true → step s = .next t → Memory.wf t.buf = true

/-- Rule R36, rule R231, rule R240 item 5: no step changes a parameter. -/
def Obligations.NoStepChangesAParameter : Prop :=
  ∀ (s t : State), step s = .next t → t.cfg = s.cfg

/-- Rule R205, rule R202: a step faults exactly on an accepted misuse with `STRICT = 0`, with the reason of that misuse, and no
step is refused. In particular with `STRICT = 1` every step goes on. -/
def Obligations.StepFaultsOnlyOnUncheckedMisuse : Prop :=
  ∀ (s : State),
    (∀ r, step s ≠ .refused r) ∧
    (∀ r, step s = .fault r ↔
      s.cfg.strict = false ∧
        ((r = .updateOutsideAccum ∧ s.fsm ≠ .accum ∧ ∃ nb data, Accepts s (.update nb data)) ∨
          (r = .finalOutsideAccum ∧ s.fsm ≠ .accum ∧ Accepts s .final) ∨
          (r = .unalignedLength ∧ s.fsm = .accum ∧ s.cfg.blockOnly = true ∧ s.bufLen ≠ 0 ∧ s.bufLen ≠ 64 ∧
            Accepts s .final))) ∧
    (s.cfg.strict = true → Runs (step s))

/-- Rule R23: `chain` changes only at reset, by INIT, and at the completion edge of a compression. -/
def Obligations.OnlyInitAndCompletionWriteChain : Prop :=
  ∀ (s t : State), step s = .next t → t.chain ≠ s.chain →
    (rstNow s = true) ∨ (Accepts s .init ∧ t.chain = initChain) ∨
      (rstNow s = false ∧ s.busy = true ∧ s.hidden.cyc ≤ 1 ∧ t.busy = false ∧
        t.chain = foldState s.hidden.hIn s.hidden.finishWork)

/-- Rule R25, rule R26: the counter changes only at reset, by INIT, by an UPDATE in ACCUM that finds the buffer full (by 64),
and by FINAL in ACCUM (by `buf_len`). -/
def Obligations.OnlyTheseChangeTheCounter : Prop :=
  ∀ (s t : State), step s = .next t → ¬(t.tLo = s.tLo ∧ t.tHi = s.tHi) →
    rstNow s = true ∨ Accepts s .init ∨
      (s.fsm = .accum ∧ (∃ nb data, Accepts s (.update nb data) ∧ 64 < s.bufLen.val + nb) ∧ t.tLo = s.tLo + 64) ∨
      (s.fsm = .accum ∧ Accepts s .final ∧ t.tLo = s.tLo + BitVec.ofNat 32 s.bufLen.val)

/-- Rule R28: `f0` is set only by FINAL in ACCUM, and cleared only by INIT and reset. -/
def Obligations.LastBlockFlagIsSetByFinalAlone : Prop :=
  ∀ (s t : State), step s = .next t →
    (s.f0 = false → t.f0 = true → Accepts s .final ∧ s.fsm = .accum ∧ t.fsm = .final) ∧
    (s.f0 = true → t.f0 = false → rstNow s = true ∨ Accepts s .init)

/-- Rule R178, rule R22: only INIT and reset leave FINAL, only INIT leaves EMPTY, and the digest stays readable as
it is until then. -/
def Obligations.OnlyInitAndResetLeaveFinal : Prop :=
  ∀ (s t : State), step s = .next t →
    (s.fsm = .final → t.fsm ≠ .final → rstNow s = true ∨ Accepts s .init) ∧
    (s.fsm = .empty → t.fsm ≠ .empty → Accepts s .init) ∧
    (s.fsm = .final → s.busy = false → rstNow s = false → ¬Accepts s .init →
      ∀ k : Fin 8, digestWord t k = digestWord s k)

/-- Rule R35, rule R30, rule R149: the hidden fields between compressions, how far the sequencer is, and the stale bytes of
the buffer are never observed: two states that no read tells apart read the same now, and step to states that no read tells
apart, or stop with the same reason. -/
def Obligations.HiddenFieldsAndStaleBytesAreUnobservable : Prop :=
  ∀ (s t : State), s.SameVisible t → Memory.wf s.buf = true → Memory.wf t.buf = true →
    (∀ a : BitVec 4, readPort s a = readPort t a) ∧ cmdReady s = cmdReady t ∧ SameOutcome (step s) (step t)

/-! ### Byte streams

Here a run of commands or of program text has `rst` low throughout: the model's choice, log 24. -/

/-- Rule R86: UPDATE_BYTES passes exactly its bytes, in order, in `ceil(n / 4)` well-formed UPDATE commands whose data words are
zero above their bytes. -/
def Obligations.UpdateBytesPassesItsBytes : Prop :=
  ∀ (bytes : List Byte),
    passedBytes (updateBytes bytes) = bytes ∧ (updateBytes bytes).length = (bytes.length + 3) / 4 ∧
      ∀ i ∈ updateBytes bytes, ∃ nb data, i = .update nb data ∧ 1 ≤ nb ∧ nb ≤ 4 ∧ data.toNat < 2 ^ (8 * nb)

/-- Rule R86, rule R161: in ACCUM, any two lists of UPDATE and NOP commands that pass the same bytes run to the end and leave
the same `chain`, `t_lo`, `t_hi`, `buf_len` and the same valid bytes ("chunking must never change the digest"). -/
def Obligations.ChunkingDoesNotMatter : Prop :=
  ∀ (s : State) (cmds1 cmds2 : List Instr), s.fsm = .accum → Memory.wf s.buf = true → s.busy = false →
    (∀ i ∈ cmds1, Instr.isFeed i = true) → (∀ i ∈ cmds2, Instr.isFeed i = true) → passedBytes cmds1 = passedBytes cmds2 →
      ∃ t1 t2, execAll cmds1 s = .next t1 ∧ execAll cmds2 s = .next t2 ∧ t1.fsm = t2.fsm ∧ t1.chain = t2.chain ∧
        t1.tLo = t2.tLo ∧ t1.tHi = t2.tHi ∧ t1.bufLen = t2.bufLen ∧
        ∀ a : Fin 64, a.val < t1.bufLen.val → Memory.read t1.buf a = Memory.read t2.buf a

/-- Rule R174: after INIT and UPDATE commands passing `T` bytes, `ceil(T/64) - 1` blocks (none for `T = 0`) have been counted
and compressed as non-final blocks, and the buffer holds the rest, 1 to 64 bytes (0 for `T = 0`). -/
def Obligations.StreamLeavesItsLastBlockInTheBuffer : Prop :=
  ∀ (s : State) (cmds : List Instr), s.busy = false → (∀ i ∈ cmds, Instr.isFeed i = true) →
    let bytes := passedBytes cmds
    let q := interiorBlocks bytes.length
    ∃ t, execAll (.init :: cmds) s = .next t ∧ t.fsm = .accum ∧ t.busy = false ∧
      t.chain = streamChain s.cfg.counterCarry64 bytes q ∧ t.tLo = countLo (64 * q) ∧
      t.tHi = countHi s.cfg.counterCarry64 (64 * q) ∧ t.bufLen.val = bytes.length - 64 * q ∧
      (bytes ≠ [] → 1 ≤ t.bufLen.val) ∧
      ∀ a : Fin 64, a.val < t.bufLen.val → Memory.read t.buf a = bytes.getD (64 * q + a.val) 0

/-- Rule R180, rule R177, rule R178: INIT, UPDATE commands passing some bytes, and FINAL leave the hash of those bytes in
`chain`, with the counter at their number; in block-only mode for a whole number of blocks. -/
def Obligations.FinalLeavesTheHashOfTheStream : Prop :=
  ∀ (s : State) (cmds : List Instr), s.busy = false → (∀ i ∈ cmds, Instr.isFeed i = true) →
    (s.cfg.blockOnly = true → (passedBytes cmds).length % 64 = 0) →
      ∃ t, execAll (.init :: (cmds ++ [.final])) s = .next t ∧ t.fsm = .final ∧ t.busy = false ∧ t.errc = .ok ∧
        t.f0 = true ∧ t.tLo = countLo (passedBytes cmds).length ∧
        t.tHi = countHi s.cfg.counterCarry64 (passedBytes cmds).length ∧
        t.chain = streamDigest s.cfg.counterCarry64 (passedBytes cmds)

/-- Rule R176: in block-only mode, the check of FINAL at `buf_len` is the check that the total number of bytes passed since
INIT is a multiple of 64. -/
def Obligations.BlockOnlyCheckIsExactForTheTotal : Prop :=
  ∀ (s t : State) (cmds : List Instr), s.busy = false → (∀ i ∈ cmds, Instr.isFeed i = true) →
    execAll (.init :: cmds) s = .next t → s.cfg.blockOnly = true →
      ((t.bufLen = 0 ∨ t.bufLen = 64) ↔ (passedBytes cmds).length % 64 = 0) ∧
      (unaligned t = true ↔ (passedBytes cmds).length % 64 ≠ 0)

/-- Rule R173: in ACCUM, the CORE's byte-serial append and the source's chunked update of the same bytes leave the same
`chain`, `t_lo`, `t_hi`, `buf_len` and the same valid bytes. -/
def Obligations.ByteSerialAppendMatchesTheSourceUpdate : Prop :=
  ∀ (s : State) (bytes : List Byte), s.fsm = .accum → s.busy = false → Memory.wf s.buf = true →
    let t := appendCollapsed bytes s
    let u := sourceUpdate bytes s
    t.chain = u.chain ∧ t.tLo = u.tLo ∧ t.tHi = u.tHi ∧ t.bufLen = u.bufLen ∧
      ∀ a : Fin 64, a.val < t.bufLen.val → Memory.read t.buf a = Memory.read u.buf a

/-- Rule R87, rule R84: the host program HASH, from any state of the invariant, even a busy one, reads the eight words of the
hash of its bytes; in block-only mode for a whole number of blocks. That `rst` stays low while the program runs is the model's
choice (log 24, DESIGN CHOICE). -/
def Obligations.HashProgramReadsTheHash : Prop :=
  ∀ (s : State) (bytes : List Byte), s.Inv → (s.cfg.blockOnly = true → bytes.length % 64 = 0) →
    ∃ t, runHost (hashProgram bytes) s [] = .next (t, (streamDigest s.cfg.counterCarry64 bytes).toList)
end

