-- ==== Sys2Proof/Laws/Memory.lean ====
section
/-! SUPPORT. The laws of the buffer memory: a read after a write, and the canonical form that every operation keeps. -/

namespace Sys2Proof.Machine

theorem Memory.wf_cons (k : Nat) (b : Byte) (rest : Memory) :
    Memory.wf ((k, b) :: rest) = true ↔
      k < 64 ∧ b ≠ Memory.unlisted ∧ (∀ cell ∈ rest, k < cell.1) ∧ Memory.wf rest = true := by
  simp [Memory.wf, and_assoc]

/-- An address below every listed one reads as an unlisted address. -/
theorem Memory.read_below (mem : Memory) (a : Fin 64) (h : ∀ cell ∈ mem, a.val < cell.1) :
    Memory.read mem a = Memory.unlisted := by
  induction mem with
  | nil => rfl
  | cons cell rest ih =>
    have hHead : a.val < cell.1 := h cell (by simp)
    have hNe : cell.1 ≠ a.val := by omega
    rw [show cell = (cell.1, cell.2) from rfl, Memory.read, if_neg hNe]
    exact ih fun c hc => h c (by simp [hc])

/-- Every cell after a write is an old cell or the written one. -/
theorem Memory.mem_write (mem : Memory) (a : Fin 64) (b : Byte) (cell : Host.Cell) (h : cell ∈ Memory.write mem a b) :
    cell ∈ mem ∨ cell.1 = a.val := by
  induction mem with
  | nil =>
    simp only [Memory.write] at h
    split at h <;> simp_all
  | cons head rest ih =>
    obtain ⟨k, c⟩ := head
    simp only [Memory.write] at h
    split at h
    · split at h <;> simp_all [or_assoc] ; grind
    · split at h
      · split at h
        · simp_all
        · simp at h; rcases h with rfl | h <;> simp_all
      · simp at h
        rcases h with rfl | h
        · simp
        · rcases ih h with h | h <;> simp_all

theorem Memory.wf_write (mem : Memory) (a : Fin 64) (b : Byte) (h : Memory.wf mem = true) :
    Memory.wf (Memory.write mem a b) = true := by
  induction mem with
  | nil =>
    simp only [Memory.write]
    split
    · rfl
    · rw [Memory.wf_cons]; exact ⟨a.isLt, by assumption, by simp, rfl⟩
  | cons head rest ih =>
    obtain ⟨k, c⟩ := head
    have hCons := h
    rw [Memory.wf_cons] at hCons
    obtain ⟨hk, hc, hLt, hRest⟩ := hCons
    simp only [Memory.write]
    split
    · rename_i hak
      split
      · exact h
      · rw [Memory.wf_cons]
        refine ⟨a.isLt, by assumption, fun cell hm => ?_, h⟩
        rcases List.mem_cons.mp hm with rfl | hm
        · exact hak
        · exact Nat.lt_trans hak (hLt cell hm)
    · split
      · split
        · exact hRest
        · rw [Memory.wf_cons]; exact ⟨hk, by assumption, hLt, hRest⟩
      · rename_i h1 h2
        rw [Memory.wf_cons]
        refine ⟨hk, hc, fun cell hm => ?_, ih hRest⟩
        rcases Memory.mem_write rest a b cell hm with hm | hm
        · exact hLt cell hm
        · omega

/-- A read after a write: the written address gives the byte, every other address what it gave. -/
theorem Memory.read_write (mem : Memory) (a c : Fin 64) (b : Byte) (h : Memory.wf mem = true) :
    Memory.read (Memory.write mem a b) c = if c = a then b else Memory.read mem c := by
  induction mem with
  | nil =>
    simp only [Memory.write]
    split <;> rename_i hb <;> simp [Memory.read, hb, Fin.ext_iff, eq_comm]
  | cons head rest ih =>
    obtain ⟨k, x⟩ := head
    rw [Memory.wf_cons] at h
    obtain ⟨hk, hx, hLt, hRest⟩ := h
    have ih := ih hRest
    simp only [Memory.write]
    by_cases h1 : a.val < k
    · rw [if_pos h1]
      have hBelow : Memory.read ((k, x) :: rest) a = Memory.unlisted := by
        apply Memory.read_below
        intro cell hm
        rcases List.mem_cons.mp hm with rfl | hm
        · exact h1
        · exact Nat.lt_trans h1 (hLt cell hm)
      by_cases hb : b = Memory.unlisted
      · rw [if_pos hb]
        by_cases hca : c = a
        · rw [if_pos hca, hca, hBelow, hb]
        · rw [if_neg hca]
      · rw [if_neg hb, Memory.read]
        by_cases hca : c = a
        · simp [hca]
        · rw [if_neg hca, if_neg (fun h => hca (Fin.ext h.symm))]
    · rw [if_neg h1]
      by_cases h2 : a.val = k
      · rw [if_pos h2]
        have hRestA : Memory.read rest a = Memory.unlisted :=
          Memory.read_below rest a fun cell hm => by have := hLt cell hm; omega
        by_cases hb : b = Memory.unlisted
        · rw [if_pos hb]
          by_cases hca : c = a
          · rw [if_pos hca, hca, hRestA, hb]
          · rw [if_neg hca, Memory.read, if_neg (fun h => hca (Fin.ext (by omega)))]
        · rw [if_neg hb, Memory.read, Memory.read]
          by_cases hca : c = a
          · simp [hca, h2]
          · have : k ≠ c.val := fun h => hca (Fin.ext (by omega))
            simp [hca, this]
      · rw [if_neg h2, Memory.read, Memory.read, ih]
        by_cases hkc : k = c.val
        · have hca : c ≠ a := fun h => h2 (by rw [← h, hkc])
          simp [hkc, hca]
        · simp [hkc]

theorem Memory.wf_writeBytes (mem : Memory) (addr : Nat) (bytes : List Byte) (h : addr + bytes.length ≤ 64)
    (hWf : Memory.wf mem = true) : Memory.wf (Memory.writeBytes mem addr bytes h) = true := by
  induction bytes generalizing mem addr with
  | nil => exact hWf
  | cons b bytes ih => exact ih _ _ _ (Memory.wf_write _ _ _ hWf)

/-- A read after `MemWrite(addr, n, bytes)`. -/
theorem Memory.read_writeBytes (mem : Memory) (addr : Nat) (bytes : List Byte) (h : addr + bytes.length ≤ 64) (c : Fin 64)
    (hWf : Memory.wf mem = true) :
    Memory.read (Memory.writeBytes mem addr bytes h) c =
      if addr ≤ c.val ∧ c.val < addr + bytes.length then bytes.getD (c.val - addr) 0 else Memory.read mem c := by
  induction bytes generalizing mem addr with
  | nil => simp [Memory.writeBytes]
  | cons b bytes ih =>
    rw [Memory.writeBytes, ih _ _ _ (Memory.wf_write _ _ _ hWf), Memory.read_write _ _ _ _ hWf]
    simp only [List.length_cons, Fin.ext_iff]
    by_cases h1 : addr + 1 ≤ c.val ∧ c.val < addr + 1 + bytes.length
    · have h3 : addr ≤ c.val ∧ c.val < addr + (bytes.length + 1) := by omega
      rw [if_pos h1, if_pos h3, show c.val - addr = (c.val - (addr + 1)) + 1 by omega, List.getD_cons_succ]
    · rw [if_neg h1]
      by_cases h2 : c.val = addr
      · have h3 : addr ≤ c.val ∧ c.val < addr + (bytes.length + 1) := by omega
        rw [if_pos h2, if_pos h3, show c.val - addr = 0 by omega, List.getD_cons_zero]
      · have h3 : ¬(addr ≤ c.val ∧ c.val < addr + (bytes.length + 1)) := by omega
        rw [if_neg h2, if_neg h3]

/-- The first listed address of a memory in canonical form reads as something an unlisted address does not. -/
theorem Memory.read_head (k : Nat) (b : Byte) (rest : Memory) (h : Memory.wf ((k, b) :: rest) = true) (hk : k < 64) :
    Memory.read ((k, b) :: rest) ⟨k, hk⟩ = b ∧ b ≠ Memory.unlisted :=
  ⟨by simp [Memory.read], ((Memory.wf_cons k b rest).mp h).2.1⟩

/-- Equal memories are equal data: two memories in canonical form that read the same at every address are one list. -/
theorem Memory.ext_of_wf (m1 m2 : Memory) (h1 : Memory.wf m1 = true) (h2 : Memory.wf m2 = true)
    (h : ∀ a : Fin 64, Memory.read m1 a = Memory.read m2 a) : m1 = m2 := by
  induction m1 generalizing m2 with
  | nil =>
    cases m2 with
    | nil => rfl
    | cons c rest =>
      obtain ⟨k, b⟩ := c
      have hk := ((Memory.wf_cons k b rest).mp h2).1
      have hb := Memory.read_head k b rest h2 hk
      exact absurd ((h ⟨k, hk⟩).trans hb.1).symm hb.2
  | cons c1 r1 ih =>
    obtain ⟨k1, b1⟩ := c1
    obtain ⟨hk1, hb1, hLt1, hr1⟩ := (Memory.wf_cons k1 b1 r1).mp h1
    cases m2 with
    | nil => exact absurd ((h ⟨k1, hk1⟩).symm.trans (Memory.read_head k1 b1 r1 h1 hk1).1).symm hb1
    | cons c2 r2 =>
      obtain ⟨k2, b2⟩ := c2
      obtain ⟨hk2, hb2, hLt2, hr2⟩ := (Memory.wf_cons k2 b2 r2).mp h2
      have hKey : k1 = k2 := by
        rcases Nat.lt_trichotomy k1 k2 with hlt | heq | hgt
        · have hBelow := Memory.read_below ((k2, b2) :: r2) ⟨k1, hk1⟩ (by
            intro cell hm
            rcases List.mem_cons.mp hm with rfl | hm
            · exact hlt
            · exact Nat.lt_trans hlt (hLt2 cell hm))
          exact absurd (((Memory.read_head k1 b1 r1 h1 hk1).1.symm.trans (h ⟨k1, hk1⟩)).trans hBelow) hb1
        · exact heq
        · have hBelow := Memory.read_below ((k1, b1) :: r1) ⟨k2, hk2⟩ (by
            intro cell hm
            rcases List.mem_cons.mp hm with rfl | hm
            · exact hgt
            · exact Nat.lt_trans hgt (hLt1 cell hm))
          exact absurd (((Memory.read_head k2 b2 r2 h2 hk2).1.symm.trans (h ⟨k2, hk2⟩).symm).trans hBelow) hb2
      subst hKey
      have hByte : b1 = b2 := by
        have := h ⟨k1, hk1⟩
        rwa [(Memory.read_head k1 b1 r1 h1 hk1).1, (Memory.read_head k1 b2 r2 h2 hk2).1] at this
      subst hByte
      have hRest : r1 = r2 := ih r2 hr1 hr2 fun a => by
        by_cases ha : k1 = a.val
        · rw [Memory.read_below r1 a (fun c hc => by have := hLt1 c hc; omega),
            Memory.read_below r2 a (fun c hc => by have := hLt2 c hc; omega)]
        · have := h a
          rwa [Memory.read, Memory.read, if_neg ha, if_neg ha] at this
      rw [hRest]

end Sys2Proof.Machine
end

