-- ==== Sys2Proof/Laws/State.lean ====
section
/-! SUPPORT. One lemma per field and field update of the state: what the update leaves in the field. -/

namespace Sys2Proof.Machine

/-! ### setResult -/

@[simp] theorem State.setResult_cfg (s : State) (code : ErrCode) (sticky : Bool) : (s.setResult code sticky).cfg = s.cfg := rfl
@[simp] theorem State.setResult_fsm (s : State) (code : ErrCode) (sticky : Bool) : (s.setResult code sticky).fsm = s.fsm := rfl
@[simp] theorem State.setResult_chain (s : State) (code : ErrCode) (sticky : Bool) : (s.setResult code sticky).chain = s.chain := rfl
@[simp] theorem State.setResult_tLo (s : State) (code : ErrCode) (sticky : Bool) : (s.setResult code sticky).tLo = s.tLo := rfl
@[simp] theorem State.setResult_tHi (s : State) (code : ErrCode) (sticky : Bool) : (s.setResult code sticky).tHi = s.tHi := rfl
@[simp] theorem State.setResult_f0 (s : State) (code : ErrCode) (sticky : Bool) : (s.setResult code sticky).f0 = s.f0 := rfl
@[simp] theorem State.setResult_f1 (s : State) (code : ErrCode) (sticky : Bool) : (s.setResult code sticky).f1 = s.f1 := rfl
@[simp] theorem State.setResult_buf (s : State) (code : ErrCode) (sticky : Bool) : (s.setResult code sticky).buf = s.buf := rfl
@[simp] theorem State.setResult_bufLen (s : State) (code : ErrCode) (sticky : Bool) : (s.setResult code sticky).bufLen = s.bufLen := rfl
@[simp] theorem State.setResult_errc (s : State) (code : ErrCode) (sticky : Bool) : (s.setResult code sticky).errc = code := rfl
@[simp] theorem State.setResult_errs (s : State) (code : ErrCode) (sticky : Bool) : (s.setResult code sticky).errs = sticky := rfl
@[simp] theorem State.setResult_busy (s : State) (code : ErrCode) (sticky : Bool) : (s.setResult code sticky).busy = s.busy := rfl
@[simp] theorem State.setResult_hidden (s : State) (code : ErrCode) (sticky : Bool) : (s.setResult code sticky).hidden = s.hidden := rfl
@[simp] theorem State.setResult_host (s : State) (code : ErrCode) (sticky : Bool) : (s.setResult code sticky).host = s.host := rfl
@[simp] theorem State.setResult_freeCount (s : State) (code : ErrCode) (sticky : Bool) : (s.setResult code sticky).freeCount = s.freeCount := rfl

/-! ### setCounter -/

@[simp] theorem State.setCounter_cfg (s : State) (lo hi : Word) : (s.setCounter lo hi).cfg = s.cfg := rfl
@[simp] theorem State.setCounter_fsm (s : State) (lo hi : Word) : (s.setCounter lo hi).fsm = s.fsm := rfl
@[simp] theorem State.setCounter_chain (s : State) (lo hi : Word) : (s.setCounter lo hi).chain = s.chain := rfl
@[simp] theorem State.setCounter_tLo (s : State) (lo hi : Word) : (s.setCounter lo hi).tLo = lo := rfl
@[simp] theorem State.setCounter_tHi (s : State) (lo hi : Word) : (s.setCounter lo hi).tHi = hi := rfl
@[simp] theorem State.setCounter_f0 (s : State) (lo hi : Word) : (s.setCounter lo hi).f0 = s.f0 := rfl
@[simp] theorem State.setCounter_f1 (s : State) (lo hi : Word) : (s.setCounter lo hi).f1 = s.f1 := rfl
@[simp] theorem State.setCounter_buf (s : State) (lo hi : Word) : (s.setCounter lo hi).buf = s.buf := rfl
@[simp] theorem State.setCounter_bufLen (s : State) (lo hi : Word) : (s.setCounter lo hi).bufLen = s.bufLen := rfl
@[simp] theorem State.setCounter_errc (s : State) (lo hi : Word) : (s.setCounter lo hi).errc = s.errc := rfl
@[simp] theorem State.setCounter_errs (s : State) (lo hi : Word) : (s.setCounter lo hi).errs = s.errs := rfl
@[simp] theorem State.setCounter_busy (s : State) (lo hi : Word) : (s.setCounter lo hi).busy = s.busy := rfl
@[simp] theorem State.setCounter_hidden (s : State) (lo hi : Word) : (s.setCounter lo hi).hidden = s.hidden := rfl
@[simp] theorem State.setCounter_host (s : State) (lo hi : Word) : (s.setCounter lo hi).host = s.host := rfl
@[simp] theorem State.setCounter_freeCount (s : State) (lo hi : Word) : (s.setCounter lo hi).freeCount = s.freeCount := rfl

/-! ### setFlags -/

@[simp] theorem State.setFlags_cfg (s : State) (last node : Bool) : (s.setFlags last node).cfg = s.cfg := rfl
@[simp] theorem State.setFlags_fsm (s : State) (last node : Bool) : (s.setFlags last node).fsm = s.fsm := rfl
@[simp] theorem State.setFlags_chain (s : State) (last node : Bool) : (s.setFlags last node).chain = s.chain := rfl
@[simp] theorem State.setFlags_tLo (s : State) (last node : Bool) : (s.setFlags last node).tLo = s.tLo := rfl
@[simp] theorem State.setFlags_tHi (s : State) (last node : Bool) : (s.setFlags last node).tHi = s.tHi := rfl
@[simp] theorem State.setFlags_f0 (s : State) (last node : Bool) : (s.setFlags last node).f0 = last := rfl
@[simp] theorem State.setFlags_f1 (s : State) (last node : Bool) : (s.setFlags last node).f1 = node := rfl
@[simp] theorem State.setFlags_buf (s : State) (last node : Bool) : (s.setFlags last node).buf = s.buf := rfl
@[simp] theorem State.setFlags_bufLen (s : State) (last node : Bool) : (s.setFlags last node).bufLen = s.bufLen := rfl
@[simp] theorem State.setFlags_errc (s : State) (last node : Bool) : (s.setFlags last node).errc = s.errc := rfl
@[simp] theorem State.setFlags_errs (s : State) (last node : Bool) : (s.setFlags last node).errs = s.errs := rfl
@[simp] theorem State.setFlags_busy (s : State) (last node : Bool) : (s.setFlags last node).busy = s.busy := rfl
@[simp] theorem State.setFlags_hidden (s : State) (last node : Bool) : (s.setFlags last node).hidden = s.hidden := rfl
@[simp] theorem State.setFlags_host (s : State) (last node : Bool) : (s.setFlags last node).host = s.host := rfl
@[simp] theorem State.setFlags_freeCount (s : State) (last node : Bool) : (s.setFlags last node).freeCount = s.freeCount := rfl

/-! ### setBuf -/

@[simp] theorem State.setBuf_cfg (s : State) (mem : Memory) : (s.setBuf mem).cfg = s.cfg := rfl
@[simp] theorem State.setBuf_fsm (s : State) (mem : Memory) : (s.setBuf mem).fsm = s.fsm := rfl
@[simp] theorem State.setBuf_chain (s : State) (mem : Memory) : (s.setBuf mem).chain = s.chain := rfl
@[simp] theorem State.setBuf_tLo (s : State) (mem : Memory) : (s.setBuf mem).tLo = s.tLo := rfl
@[simp] theorem State.setBuf_tHi (s : State) (mem : Memory) : (s.setBuf mem).tHi = s.tHi := rfl
@[simp] theorem State.setBuf_f0 (s : State) (mem : Memory) : (s.setBuf mem).f0 = s.f0 := rfl
@[simp] theorem State.setBuf_f1 (s : State) (mem : Memory) : (s.setBuf mem).f1 = s.f1 := rfl
@[simp] theorem State.setBuf_buf (s : State) (mem : Memory) : (s.setBuf mem).buf = mem := rfl
@[simp] theorem State.setBuf_bufLen (s : State) (mem : Memory) : (s.setBuf mem).bufLen = s.bufLen := rfl
@[simp] theorem State.setBuf_errc (s : State) (mem : Memory) : (s.setBuf mem).errc = s.errc := rfl
@[simp] theorem State.setBuf_errs (s : State) (mem : Memory) : (s.setBuf mem).errs = s.errs := rfl
@[simp] theorem State.setBuf_busy (s : State) (mem : Memory) : (s.setBuf mem).busy = s.busy := rfl
@[simp] theorem State.setBuf_hidden (s : State) (mem : Memory) : (s.setBuf mem).hidden = s.hidden := rfl
@[simp] theorem State.setBuf_host (s : State) (mem : Memory) : (s.setBuf mem).host = s.host := rfl
@[simp] theorem State.setBuf_freeCount (s : State) (mem : Memory) : (s.setBuf mem).freeCount = s.freeCount := rfl

/-! ### setBufLen -/

@[simp] theorem State.setBufLen_cfg (s : State) (n : Fin 65) : (s.setBufLen n).cfg = s.cfg := rfl
@[simp] theorem State.setBufLen_fsm (s : State) (n : Fin 65) : (s.setBufLen n).fsm = s.fsm := rfl
@[simp] theorem State.setBufLen_chain (s : State) (n : Fin 65) : (s.setBufLen n).chain = s.chain := rfl
@[simp] theorem State.setBufLen_tLo (s : State) (n : Fin 65) : (s.setBufLen n).tLo = s.tLo := rfl
@[simp] theorem State.setBufLen_tHi (s : State) (n : Fin 65) : (s.setBufLen n).tHi = s.tHi := rfl
@[simp] theorem State.setBufLen_f0 (s : State) (n : Fin 65) : (s.setBufLen n).f0 = s.f0 := rfl
@[simp] theorem State.setBufLen_f1 (s : State) (n : Fin 65) : (s.setBufLen n).f1 = s.f1 := rfl
@[simp] theorem State.setBufLen_buf (s : State) (n : Fin 65) : (s.setBufLen n).buf = s.buf := rfl
@[simp] theorem State.setBufLen_bufLen (s : State) (n : Fin 65) : (s.setBufLen n).bufLen = n := rfl
@[simp] theorem State.setBufLen_errc (s : State) (n : Fin 65) : (s.setBufLen n).errc = s.errc := rfl
@[simp] theorem State.setBufLen_errs (s : State) (n : Fin 65) : (s.setBufLen n).errs = s.errs := rfl
@[simp] theorem State.setBufLen_busy (s : State) (n : Fin 65) : (s.setBufLen n).busy = s.busy := rfl
@[simp] theorem State.setBufLen_hidden (s : State) (n : Fin 65) : (s.setBufLen n).hidden = s.hidden := rfl
@[simp] theorem State.setBufLen_host (s : State) (n : Fin 65) : (s.setBufLen n).host = s.host := rfl
@[simp] theorem State.setBufLen_freeCount (s : State) (n : Fin 65) : (s.setBufLen n).freeCount = s.freeCount := rfl

/-! ### setFsm -/

@[simp] theorem State.setFsm_cfg (s : State) (f : Fsm) : (s.setFsm f).cfg = s.cfg := rfl
@[simp] theorem State.setFsm_fsm (s : State) (f : Fsm) : (s.setFsm f).fsm = f := rfl
@[simp] theorem State.setFsm_chain (s : State) (f : Fsm) : (s.setFsm f).chain = s.chain := rfl
@[simp] theorem State.setFsm_tLo (s : State) (f : Fsm) : (s.setFsm f).tLo = s.tLo := rfl
@[simp] theorem State.setFsm_tHi (s : State) (f : Fsm) : (s.setFsm f).tHi = s.tHi := rfl
@[simp] theorem State.setFsm_f0 (s : State) (f : Fsm) : (s.setFsm f).f0 = s.f0 := rfl
@[simp] theorem State.setFsm_f1 (s : State) (f : Fsm) : (s.setFsm f).f1 = s.f1 := rfl
@[simp] theorem State.setFsm_buf (s : State) (f : Fsm) : (s.setFsm f).buf = s.buf := rfl
@[simp] theorem State.setFsm_bufLen (s : State) (f : Fsm) : (s.setFsm f).bufLen = s.bufLen := rfl
@[simp] theorem State.setFsm_errc (s : State) (f : Fsm) : (s.setFsm f).errc = s.errc := rfl
@[simp] theorem State.setFsm_errs (s : State) (f : Fsm) : (s.setFsm f).errs = s.errs := rfl
@[simp] theorem State.setFsm_busy (s : State) (f : Fsm) : (s.setFsm f).busy = s.busy := rfl
@[simp] theorem State.setFsm_hidden (s : State) (f : Fsm) : (s.setFsm f).hidden = s.hidden := rfl
@[simp] theorem State.setFsm_host (s : State) (f : Fsm) : (s.setFsm f).host = s.host := rfl
@[simp] theorem State.setFsm_freeCount (s : State) (f : Fsm) : (s.setFsm f).freeCount = s.freeCount := rfl

/-! ### setChain -/

@[simp] theorem State.setChain_cfg (s : State) (h : Vector Word 8) : (s.setChain h).cfg = s.cfg := rfl
@[simp] theorem State.setChain_fsm (s : State) (h : Vector Word 8) : (s.setChain h).fsm = s.fsm := rfl
@[simp] theorem State.setChain_chain (s : State) (h : Vector Word 8) : (s.setChain h).chain = h := rfl
@[simp] theorem State.setChain_tLo (s : State) (h : Vector Word 8) : (s.setChain h).tLo = s.tLo := rfl
@[simp] theorem State.setChain_tHi (s : State) (h : Vector Word 8) : (s.setChain h).tHi = s.tHi := rfl
@[simp] theorem State.setChain_f0 (s : State) (h : Vector Word 8) : (s.setChain h).f0 = s.f0 := rfl
@[simp] theorem State.setChain_f1 (s : State) (h : Vector Word 8) : (s.setChain h).f1 = s.f1 := rfl
@[simp] theorem State.setChain_buf (s : State) (h : Vector Word 8) : (s.setChain h).buf = s.buf := rfl
@[simp] theorem State.setChain_bufLen (s : State) (h : Vector Word 8) : (s.setChain h).bufLen = s.bufLen := rfl
@[simp] theorem State.setChain_errc (s : State) (h : Vector Word 8) : (s.setChain h).errc = s.errc := rfl
@[simp] theorem State.setChain_errs (s : State) (h : Vector Word 8) : (s.setChain h).errs = s.errs := rfl
@[simp] theorem State.setChain_busy (s : State) (h : Vector Word 8) : (s.setChain h).busy = s.busy := rfl
@[simp] theorem State.setChain_hidden (s : State) (h : Vector Word 8) : (s.setChain h).hidden = s.hidden := rfl
@[simp] theorem State.setChain_host (s : State) (h : Vector Word 8) : (s.setChain h).host = s.host := rfl
@[simp] theorem State.setChain_freeCount (s : State) (h : Vector Word 8) : (s.setChain h).freeCount = s.freeCount := rfl

/-! ### setBusy -/

@[simp] theorem State.setBusy_cfg (s : State) (b : Bool) : (s.setBusy b).cfg = s.cfg := rfl
@[simp] theorem State.setBusy_fsm (s : State) (b : Bool) : (s.setBusy b).fsm = s.fsm := rfl
@[simp] theorem State.setBusy_chain (s : State) (b : Bool) : (s.setBusy b).chain = s.chain := rfl
@[simp] theorem State.setBusy_tLo (s : State) (b : Bool) : (s.setBusy b).tLo = s.tLo := rfl
@[simp] theorem State.setBusy_tHi (s : State) (b : Bool) : (s.setBusy b).tHi = s.tHi := rfl
@[simp] theorem State.setBusy_f0 (s : State) (b : Bool) : (s.setBusy b).f0 = s.f0 := rfl
@[simp] theorem State.setBusy_f1 (s : State) (b : Bool) : (s.setBusy b).f1 = s.f1 := rfl
@[simp] theorem State.setBusy_buf (s : State) (b : Bool) : (s.setBusy b).buf = s.buf := rfl
@[simp] theorem State.setBusy_bufLen (s : State) (b : Bool) : (s.setBusy b).bufLen = s.bufLen := rfl
@[simp] theorem State.setBusy_errc (s : State) (b : Bool) : (s.setBusy b).errc = s.errc := rfl
@[simp] theorem State.setBusy_errs (s : State) (b : Bool) : (s.setBusy b).errs = s.errs := rfl
@[simp] theorem State.setBusy_busy (s : State) (b : Bool) : (s.setBusy b).busy = b := rfl
@[simp] theorem State.setBusy_hidden (s : State) (b : Bool) : (s.setBusy b).hidden = s.hidden := rfl
@[simp] theorem State.setBusy_host (s : State) (b : Bool) : (s.setBusy b).host = s.host := rfl
@[simp] theorem State.setBusy_freeCount (s : State) (b : Bool) : (s.setBusy b).freeCount = s.freeCount := rfl

/-! ### setHidden -/

@[simp] theorem State.setHidden_cfg (s : State) (h : Hidden) : (s.setHidden h).cfg = s.cfg := rfl
@[simp] theorem State.setHidden_fsm (s : State) (h : Hidden) : (s.setHidden h).fsm = s.fsm := rfl
@[simp] theorem State.setHidden_chain (s : State) (h : Hidden) : (s.setHidden h).chain = s.chain := rfl
@[simp] theorem State.setHidden_tLo (s : State) (h : Hidden) : (s.setHidden h).tLo = s.tLo := rfl
@[simp] theorem State.setHidden_tHi (s : State) (h : Hidden) : (s.setHidden h).tHi = s.tHi := rfl
@[simp] theorem State.setHidden_f0 (s : State) (h : Hidden) : (s.setHidden h).f0 = s.f0 := rfl
@[simp] theorem State.setHidden_f1 (s : State) (h : Hidden) : (s.setHidden h).f1 = s.f1 := rfl
@[simp] theorem State.setHidden_buf (s : State) (h : Hidden) : (s.setHidden h).buf = s.buf := rfl
@[simp] theorem State.setHidden_bufLen (s : State) (h : Hidden) : (s.setHidden h).bufLen = s.bufLen := rfl
@[simp] theorem State.setHidden_errc (s : State) (h : Hidden) : (s.setHidden h).errc = s.errc := rfl
@[simp] theorem State.setHidden_errs (s : State) (h : Hidden) : (s.setHidden h).errs = s.errs := rfl
@[simp] theorem State.setHidden_busy (s : State) (h : Hidden) : (s.setHidden h).busy = s.busy := rfl
@[simp] theorem State.setHidden_hidden (s : State) (h : Hidden) : (s.setHidden h).hidden = h := rfl
@[simp] theorem State.setHidden_host (s : State) (h : Hidden) : (s.setHidden h).host = s.host := rfl
@[simp] theorem State.setHidden_freeCount (s : State) (h : Hidden) : (s.setHidden h).freeCount = s.freeCount := rfl

/-! ### setHost -/

@[simp] theorem State.setHost_cfg (s : State) (h : HostPort) : (s.setHost h).cfg = s.cfg := rfl
@[simp] theorem State.setHost_fsm (s : State) (h : HostPort) : (s.setHost h).fsm = s.fsm := rfl
@[simp] theorem State.setHost_chain (s : State) (h : HostPort) : (s.setHost h).chain = s.chain := rfl
@[simp] theorem State.setHost_tLo (s : State) (h : HostPort) : (s.setHost h).tLo = s.tLo := rfl
@[simp] theorem State.setHost_tHi (s : State) (h : HostPort) : (s.setHost h).tHi = s.tHi := rfl
@[simp] theorem State.setHost_f0 (s : State) (h : HostPort) : (s.setHost h).f0 = s.f0 := rfl
@[simp] theorem State.setHost_f1 (s : State) (h : HostPort) : (s.setHost h).f1 = s.f1 := rfl
@[simp] theorem State.setHost_buf (s : State) (h : HostPort) : (s.setHost h).buf = s.buf := rfl
@[simp] theorem State.setHost_bufLen (s : State) (h : HostPort) : (s.setHost h).bufLen = s.bufLen := rfl
@[simp] theorem State.setHost_errc (s : State) (h : HostPort) : (s.setHost h).errc = s.errc := rfl
@[simp] theorem State.setHost_errs (s : State) (h : HostPort) : (s.setHost h).errs = s.errs := rfl
@[simp] theorem State.setHost_busy (s : State) (h : HostPort) : (s.setHost h).busy = s.busy := rfl
@[simp] theorem State.setHost_hidden (s : State) (h : HostPort) : (s.setHost h).hidden = s.hidden := rfl
@[simp] theorem State.setHost_host (s : State) (h : HostPort) : (s.setHost h).host = h := rfl
@[simp] theorem State.setHost_freeCount (s : State) (h : HostPort) : (s.setHost h).freeCount = s.freeCount := rfl

/-! ### countFree -/

@[simp] theorem State.countFree_cfg (s : State) : (s.countFree).cfg = s.cfg := rfl
@[simp] theorem State.countFree_fsm (s : State) : (s.countFree).fsm = s.fsm := rfl
@[simp] theorem State.countFree_chain (s : State) : (s.countFree).chain = s.chain := rfl
@[simp] theorem State.countFree_tLo (s : State) : (s.countFree).tLo = s.tLo := rfl
@[simp] theorem State.countFree_tHi (s : State) : (s.countFree).tHi = s.tHi := rfl
@[simp] theorem State.countFree_f0 (s : State) : (s.countFree).f0 = s.f0 := rfl
@[simp] theorem State.countFree_f1 (s : State) : (s.countFree).f1 = s.f1 := rfl
@[simp] theorem State.countFree_buf (s : State) : (s.countFree).buf = s.buf := rfl
@[simp] theorem State.countFree_bufLen (s : State) : (s.countFree).bufLen = s.bufLen := rfl
@[simp] theorem State.countFree_errc (s : State) : (s.countFree).errc = s.errc := rfl
@[simp] theorem State.countFree_errs (s : State) : (s.countFree).errs = s.errs := rfl
@[simp] theorem State.countFree_busy (s : State) : (s.countFree).busy = s.busy := rfl
@[simp] theorem State.countFree_hidden (s : State) : (s.countFree).hidden = s.hidden := rfl
@[simp] theorem State.countFree_host (s : State) : (s.countFree).host = s.host := rfl
@[simp] theorem State.countFree_freeCount (s : State) : (s.countFree).freeCount = s.freeCount + 1 := rfl

/-! ### The shared writers of the result code -/

@[simp] theorem raiseError_cfg (code : ErrCode) (s : State) : (raiseError code s).cfg = s.cfg := rfl
@[simp] theorem raiseError_fsm (code : ErrCode) (s : State) : (raiseError code s).fsm = s.fsm := rfl
@[simp] theorem raiseError_chain (code : ErrCode) (s : State) : (raiseError code s).chain = s.chain := rfl
@[simp] theorem raiseError_tLo (code : ErrCode) (s : State) : (raiseError code s).tLo = s.tLo := rfl
@[simp] theorem raiseError_tHi (code : ErrCode) (s : State) : (raiseError code s).tHi = s.tHi := rfl
@[simp] theorem raiseError_f0 (code : ErrCode) (s : State) : (raiseError code s).f0 = s.f0 := rfl
@[simp] theorem raiseError_f1 (code : ErrCode) (s : State) : (raiseError code s).f1 = s.f1 := rfl
@[simp] theorem raiseError_buf (code : ErrCode) (s : State) : (raiseError code s).buf = s.buf := rfl
@[simp] theorem raiseError_bufLen (code : ErrCode) (s : State) : (raiseError code s).bufLen = s.bufLen := rfl
@[simp] theorem raiseError_errc (code : ErrCode) (s : State) : (raiseError code s).errc = code := rfl
@[simp] theorem raiseError_errs (code : ErrCode) (s : State) : (raiseError code s).errs = true := rfl
@[simp] theorem raiseError_busy (code : ErrCode) (s : State) : (raiseError code s).busy = s.busy := rfl
@[simp] theorem raiseError_hidden (code : ErrCode) (s : State) : (raiseError code s).hidden = s.hidden := rfl
@[simp] theorem raiseError_host (code : ErrCode) (s : State) : (raiseError code s).host = s.host := rfl
@[simp] theorem raiseError_freeCount (code : ErrCode) (s : State) : (raiseError code s).freeCount = s.freeCount := rfl

@[simp] theorem succeed_cfg (s : State) : (succeed s).cfg = s.cfg := rfl
@[simp] theorem succeed_fsm (s : State) : (succeed s).fsm = s.fsm := rfl
@[simp] theorem succeed_chain (s : State) : (succeed s).chain = s.chain := rfl
@[simp] theorem succeed_tLo (s : State) : (succeed s).tLo = s.tLo := rfl
@[simp] theorem succeed_tHi (s : State) : (succeed s).tHi = s.tHi := rfl
@[simp] theorem succeed_f0 (s : State) : (succeed s).f0 = s.f0 := rfl
@[simp] theorem succeed_f1 (s : State) : (succeed s).f1 = s.f1 := rfl
@[simp] theorem succeed_buf (s : State) : (succeed s).buf = s.buf := rfl
@[simp] theorem succeed_bufLen (s : State) : (succeed s).bufLen = s.bufLen := rfl
@[simp] theorem succeed_errc (s : State) : (succeed s).errc = .ok := rfl
@[simp] theorem succeed_errs (s : State) : (succeed s).errs = s.errs := rfl
@[simp] theorem succeed_busy (s : State) : (succeed s).busy = s.busy := rfl
@[simp] theorem succeed_hidden (s : State) : (succeed s).hidden = s.hidden := rfl
@[simp] theorem succeed_host (s : State) : (succeed s).host = s.host := rfl
@[simp] theorem succeed_freeCount (s : State) : (succeed s).freeCount = s.freeCount := rfl

end Sys2Proof.Machine
end

