-- ==== Sys2Proof/Laws/Compression.lean ====
section
/-! SUPPORT. The sequencer and the busy interval: however the G steps fall on the edges, the rest of the schedule leads to the
same working vector; what a busy edge does. -/

namespace Sys2Proof.Machine

/-- The position (`rnd`, `stp`) as a number 0..79. -/
abbrev Hidden.pos (h : Hidden) : Nat := 8 * h.rnd.val + h.stp.val

@[simp] theorem Hidden.advance_m (h : Hidden) : h.advance.m = h.m := rfl
@[simp] theorem Hidden.advance_hIn (h : Hidden) : h.advance.hIn = h.hIn := rfl
@[simp] theorem Hidden.advance_cyc (h : Hidden) : h.advance.cyc = h.cyc := rfl

@[simp] theorem Hidden.runSteps_m (n : Nat) (h : Hidden) : (Hidden.runSteps n h).m = h.m := by
  induction n generalizing h with
  | zero => rfl
  | succ n ih => rw [Hidden.runSteps, ih, Hidden.advance_m]

@[simp] theorem Hidden.runSteps_hIn (n : Nat) (h : Hidden) : (Hidden.runSteps n h).hIn = h.hIn := by
  induction n generalizing h with
  | zero => rfl
  | succ n ih => rw [Hidden.runSteps, ih, Hidden.advance_hIn]

@[simp] theorem Hidden.runSteps_cyc (n : Nat) (h : Hidden) : (Hidden.runSteps n h).cyc = h.cyc := by
  induction n generalizing h with
  | zero => rfl
  | succ n ih => rw [Hidden.runSteps, ih, Hidden.advance_cyc]

theorem Hidden.runSteps_add (a b : Nat) (h : Hidden) :
    Hidden.runSteps (a + b) h = Hidden.runSteps b (Hidden.runSteps a h) := by
  induction a generalizing h with
  | zero => simp [Hidden.runSteps]
  | succ a ih => rw [Nat.succ_add, Hidden.runSteps, ih, Hidden.runSteps]

/-- One G step moves the position on by one, before the last. -/
theorem Hidden.pos_advance (h : Hidden) (hLt : h.pos < 79) : h.advance.pos = h.pos + 1 := by
  obtain ⟨hIn, m, v, rnd, stp, cyc⟩ := h
  simp only [Hidden.pos, Hidden.advance] at *
  fin_cases stp <;> simp at *
  omega

theorem Hidden.pos_runSteps (n : Nat) (h : Hidden) (hLt : h.pos + n ≤ 79) :
    (Hidden.runSteps n h).pos = h.pos + n := by
  induction n generalizing h with
  | zero => rfl
  | succ n ih =>
    have hAdv := Hidden.pos_advance h (by omega)
    rw [Hidden.runSteps, ih h.advance (by omega), hAdv]
    omega

theorem Hidden.pos_le (h : Hidden) : h.pos ≤ 79 := by
  have := h.rnd.isLt; have := h.stp.isLt; unfold Hidden.pos; omega

/-- The rest of the schedule after some of its steps, but for the last, is the rest of the schedule. -/
theorem Hidden.finishWork_runSteps (n : Nat) (h : Hidden) (hLt : n ≤ h.stepsLeft - 1) :
    (Hidden.runSteps n h).finishWork = h.finishWork := by
  have hPos := h.pos_le
  have hLeft : h.stepsLeft = 80 - h.pos := rfl
  have hPos' := Hidden.pos_runSteps n h (by omega)
  have hLeft' : (Hidden.runSteps n h).stepsLeft = 80 - (Hidden.runSteps n h).pos := rfl
  rw [Hidden.finishWork, Hidden.finishWork, ← Hidden.runSteps_add]
  congr 2
  omega

/-- Eight G steps from the start of a round are the round, and lead to the start of the next (rule R129). -/
theorem Hidden.runSteps_round (h : Hidden) (hs : h.stp = 0) :
    Hidden.runSteps 8 h = { h with v := mixRound h.m h.v h.rnd, rnd := h.rnd + 1 } := by
  obtain ⟨hIn, m, v, rnd, stp, cyc⟩ := h
  subst hs
  rw [mixRound, show List.finRange 8 = [0, 1, 2, 3, 4, 5, 6, 7] from rfl]
  simp only [List.foldl_cons, List.foldl_nil, Hidden.runSteps, Hidden.advance]
  generalize gStep = g
  rfl

/-- `n` rounds from the start of a round. -/
theorem Hidden.runSteps_rounds (n : Nat) (h : Hidden) (hs : h.stp = 0) (hn : h.rnd.val + n ≤ 10) :
    (Hidden.runSteps (8 * n) h).v =
      ((List.finRange n).map fun k => Fin.ofNat 10 (h.rnd.val + k.val)).foldl (fun w r => mixRound h.m w r) h.v := by
  induction n generalizing h with
  | zero => rfl
  | succ n ih =>
    rw [Nat.mul_succ, Nat.add_comm (8 * n) 8, Hidden.runSteps_add, Hidden.runSteps_round h hs]
    have hr : Fin.ofNat 10 h.rnd.val = h.rnd := by ext; simp [Fin.ofNat, Nat.mod_eq_of_lt]
    cases n with
    | zero => simp [Hidden.runSteps, List.finRange_succ]
    | succ n =>
      have hNext : (h.rnd + 1).val = h.rnd.val + 1 := by
        have := h.rnd.isLt
        rw [Fin.val_add]; simp; omega
      rw [ih]
      · rw [List.finRange_succ (n := n + 1)]
        simp only [List.map_cons, List.foldl_cons, List.map_map, Fin.val_zero, Nat.add_zero, hr]
        congr 2
        funext k
        simp only [Function.comp, hNext, Fin.val_succ, Nat.add_assoc, Nat.add_comm 1]
      · exact hs
      · simp only [hNext]; omega

/-- The working vector after the whole schedule from its start is the pipeline's (rule R130). -/
theorem Hidden.finishWork_start (h : Hidden) (hr : h.rnd = 0) (hs : h.stp = 0) :
    h.finishWork = pipeline h.m h.v := by
  have hLeft : h.stepsLeft = 8 * 10 := by simp [Hidden.stepsLeft, hr, hs]
  rw [Hidden.finishWork, hLeft, Hidden.runSteps_rounds 10 h hs (by simp [hr]), pipeline]
  congr 1
  simp only [hr]
  decide

/-! ### The edges of a compression -/

@[simp] theorem startCompress_cfg (s : State) : (startCompress s).cfg = s.cfg := rfl
@[simp] theorem startCompress_fsm (s : State) : (startCompress s).fsm = s.fsm := rfl
@[simp] theorem startCompress_chain (s : State) : (startCompress s).chain = s.chain := rfl
@[simp] theorem startCompress_tLo (s : State) : (startCompress s).tLo = s.tLo := rfl
@[simp] theorem startCompress_tHi (s : State) : (startCompress s).tHi = s.tHi := rfl
@[simp] theorem startCompress_f0 (s : State) : (startCompress s).f0 = s.f0 := rfl
@[simp] theorem startCompress_f1 (s : State) : (startCompress s).f1 = s.f1 := rfl
@[simp] theorem startCompress_buf (s : State) : (startCompress s).buf = s.buf := rfl
@[simp] theorem startCompress_bufLen (s : State) : (startCompress s).bufLen = s.bufLen := rfl
@[simp] theorem startCompress_errc (s : State) : (startCompress s).errc = s.errc := rfl
@[simp] theorem startCompress_errs (s : State) : (startCompress s).errs = s.errs := rfl
@[simp] theorem startCompress_busy (s : State) : (startCompress s).busy = true := rfl
@[simp] theorem startCompress_host (s : State) : (startCompress s).host = s.host := rfl
@[simp] theorem startCompress_freeCount (s : State) : (startCompress s).freeCount = s.freeCount := rfl

@[simp] theorem completeCompress_cfg (s : State) : (completeCompress s).cfg = s.cfg := rfl
@[simp] theorem completeCompress_fsm (s : State) : (completeCompress s).fsm = s.fsm := rfl
@[simp] theorem completeCompress_chain (s : State) : (completeCompress s).chain = foldState s.hidden.hIn s.hidden.finishWork := rfl
@[simp] theorem completeCompress_tLo (s : State) : (completeCompress s).tLo = s.tLo := rfl
@[simp] theorem completeCompress_tHi (s : State) : (completeCompress s).tHi = s.tHi := rfl
@[simp] theorem completeCompress_f0 (s : State) : (completeCompress s).f0 = s.f0 := rfl
@[simp] theorem completeCompress_f1 (s : State) : (completeCompress s).f1 = s.f1 := rfl
@[simp] theorem completeCompress_buf (s : State) : (completeCompress s).buf = s.buf := rfl
@[simp] theorem completeCompress_bufLen (s : State) : (completeCompress s).bufLen = s.bufLen := rfl
@[simp] theorem completeCompress_errc (s : State) : (completeCompress s).errc = s.errc := rfl
@[simp] theorem completeCompress_errs (s : State) : (completeCompress s).errs = s.errs := rfl
@[simp] theorem completeCompress_busy (s : State) : (completeCompress s).busy = false := rfl
@[simp] theorem completeCompress_hidden (s : State) : (completeCompress s).hidden = Hidden.free s.freeCount := rfl
@[simp] theorem completeCompress_host (s : State) : (completeCompress s).host = s.host := rfl
@[simp] theorem completeCompress_freeCount (s : State) : (completeCompress s).freeCount = s.freeCount + 1 := rfl

@[simp] theorem progressCompress_cfg (s : State) : (progressCompress s).cfg = s.cfg := rfl
@[simp] theorem progressCompress_fsm (s : State) : (progressCompress s).fsm = s.fsm := rfl
@[simp] theorem progressCompress_chain (s : State) : (progressCompress s).chain = s.chain := rfl
@[simp] theorem progressCompress_tLo (s : State) : (progressCompress s).tLo = s.tLo := rfl
@[simp] theorem progressCompress_tHi (s : State) : (progressCompress s).tHi = s.tHi := rfl
@[simp] theorem progressCompress_f0 (s : State) : (progressCompress s).f0 = s.f0 := rfl
@[simp] theorem progressCompress_f1 (s : State) : (progressCompress s).f1 = s.f1 := rfl
@[simp] theorem progressCompress_buf (s : State) : (progressCompress s).buf = s.buf := rfl
@[simp] theorem progressCompress_bufLen (s : State) : (progressCompress s).bufLen = s.bufLen := rfl
@[simp] theorem progressCompress_errc (s : State) : (progressCompress s).errc = s.errc := rfl
@[simp] theorem progressCompress_errs (s : State) : (progressCompress s).errs = s.errs := rfl
@[simp] theorem progressCompress_busy (s : State) : (progressCompress s).busy = s.busy := rfl
@[simp] theorem progressCompress_host (s : State) : (progressCompress s).host = s.host := rfl
@[simp] theorem progressCompress_freeCount (s : State) : (progressCompress s).freeCount = s.freeCount + 1 := rfl

/-- What starting a compression latches (rule R35, rule R141, rule R142, rule R245). -/
@[simp] theorem startCompress_hidden (s : State) :
    (startCompress s).hidden =
      { hIn := s.chain, m := loadMessage s.buf, v := initWork s.chain s.tLo s.tHi s.f0 s.f1, rnd := 0, stp := 0
        cyc := s.cfg.compressCycles } := rfl

/-- The rest of the schedule, right after the start, is the pipeline (rule R130, rule R143). -/
theorem startCompress_finishWork (s : State) :
    (startCompress s).hidden.finishWork = pipeline (loadMessage s.buf) (initWork s.chain s.tLo s.tHi s.f0 s.f1) :=
  Hidden.finishWork_start _ rfl rfl

/-- The hidden fields after a busy edge before the completion edge. -/
@[simp] theorem progressCompress_hidden (s : State) :
    (progressCompress s).hidden = { Hidden.runSteps (stepsNow s) s.hidden with cyc := s.hidden.cyc - 1 } := rfl

/-- The working vector the schedule leads to does not depend on the cycle count. -/
theorem Hidden.runSteps_setCyc (n c : Nat) (h : Hidden) :
    Hidden.runSteps n { h with cyc := c } = { Hidden.runSteps n h with cyc := c } := by
  induction n generalizing h with
  | zero => rfl
  | succ n ih => rw [Hidden.runSteps, Hidden.runSteps, ← ih]; rfl

theorem Hidden.finishWork_setCyc (h : Hidden) (c : Nat) : ({ h with cyc := c } : Hidden).finishWork = h.finishWork := by
  rw [Hidden.finishWork, Hidden.finishWork, Hidden.runSteps_setCyc]; rfl

/-- A busy edge before the completion edge leaves what the schedule leads to (rule R245: no result depends on the cycles). -/
theorem progressCompress_finishWork (s : State) :
    (progressCompress s).hidden.finishWork = s.hidden.finishWork := by
  rw [progressCompress_hidden, Hidden.finishWork_setCyc]
  exact Hidden.finishWork_runSteps _ _ (Nat.min_le_right _ _)

/-- Everything a busy edge can do: it completes the compression, or it advances it by a cycle. -/
theorem busyEdge_cases (s : State) :
    (s.hidden.cyc ≤ 1 ∧ busyEdge s = completeCompress s) ∨ (1 < s.hidden.cyc ∧ busyEdge s = progressCompress s) := by
  by_cases h : s.hidden.cyc ≤ 1
  · exact .inl ⟨h, by simp [busyEdge, h]⟩
  · exact .inr ⟨by omega, by simp [busyEdge, h]⟩

/-- Two buffers that read the same load the same message words (rule R141). -/
theorem loadMessage_congr (m1 m2 : Memory) (h : ∀ a : Fin 64, Memory.read m1 a = Memory.read m2 a) :
    loadMessage m1 = loadMessage m2 := by
  ext j hj
  simp [loadMessage, load32le, h]

end Sys2Proof.Machine
end

