-- ==== Sys2Proof/Laws/Buffer.lean ====
section
/-! SUPPORT. The byte counter, AppendByte and FinalBlock: one lemma per field, and appending as one `MemWrite`. -/

namespace Sys2Proof.Machine

/-! ### CounterAdd -/

/-- The low half is the sum modulo 2^32 in both settings (rule R25). -/
@[simp] theorem counterAdd_tLo (n : Nat) (s : State) : (counterAdd n s).tLo = s.tLo + BitVec.ofNat 32 n := by
  simp only [counterAdd, State.setCounter_tLo, counterNext]
  split
  · apply BitVec.eq_of_toNat_eq
    simp [counter]
    omega
  · rfl

@[simp] theorem counterAdd_tHi (n : Nat) (s : State) : (counterAdd n s).tHi = (counterNext n s).2 := rfl

/-- Without `COUNTER_CARRY64` the high half stays (rule R25). -/
theorem counterNext_noCarry (n : Nat) (s : State) (h : s.cfg.counterCarry64 = false) :
    (counterNext n s).2 = s.tHi := by simp [counterNext, h]

/-- With `COUNTER_CARRY64` the counter is the sum modulo 2^64 (rule R25). -/
theorem counter_counterAdd_carry (n : Nat) (s : State) (h : s.cfg.counterCarry64 = true) :
    counter (counterAdd n s) = (counter s + n) % 2 ^ 64 := by
  simp only [counter, counterAdd, State.setCounter_tHi, State.setCounter_tLo, counterNext, h, if_true, BitVec.toNat_ofNat]
  omega

/-- A counter that has no high half yet keeps none while the sum fits 32 bits (rule R25: both settings agree there). -/
theorem counterNext_small (n : Nat) (s : State) (h0 : s.tHi = 0) (h : s.tLo.toNat + n < 2 ^ 32) :
    (counterNext n s).2 = 0 := by
  unfold counterNext
  split
  · apply BitVec.eq_of_toNat_eq
    simp [counter, h0]
    omega
  · exact h0

@[simp] theorem counterAdd_cfg (n : Nat) (s : State) : (counterAdd n s).cfg = s.cfg := rfl
@[simp] theorem counterAdd_fsm (n : Nat) (s : State) : (counterAdd n s).fsm = s.fsm := rfl
@[simp] theorem counterAdd_chain (n : Nat) (s : State) : (counterAdd n s).chain = s.chain := rfl
@[simp] theorem counterAdd_f0 (n : Nat) (s : State) : (counterAdd n s).f0 = s.f0 := rfl
@[simp] theorem counterAdd_f1 (n : Nat) (s : State) : (counterAdd n s).f1 = s.f1 := rfl
@[simp] theorem counterAdd_buf (n : Nat) (s : State) : (counterAdd n s).buf = s.buf := rfl
@[simp] theorem counterAdd_bufLen (n : Nat) (s : State) : (counterAdd n s).bufLen = s.bufLen := rfl
@[simp] theorem counterAdd_errc (n : Nat) (s : State) : (counterAdd n s).errc = s.errc := rfl
@[simp] theorem counterAdd_errs (n : Nat) (s : State) : (counterAdd n s).errs = s.errs := rfl
@[simp] theorem counterAdd_busy (n : Nat) (s : State) : (counterAdd n s).busy = s.busy := rfl
@[simp] theorem counterAdd_hidden (n : Nat) (s : State) : (counterAdd n s).hidden = s.hidden := rfl
@[simp] theorem counterAdd_host (n : Nat) (s : State) : (counterAdd n s).host = s.host := rfl
@[simp] theorem counterAdd_freeCount (n : Nat) (s : State) : (counterAdd n s).freeCount = s.freeCount := rfl

/-! ### AppendByte -/

@[simp] theorem storeByte_cfg (b : Byte) (s : State) : (storeByte b s).cfg = s.cfg := rfl
@[simp] theorem storeByte_fsm (b : Byte) (s : State) : (storeByte b s).fsm = s.fsm := rfl
@[simp] theorem storeByte_chain (b : Byte) (s : State) : (storeByte b s).chain = s.chain := rfl
@[simp] theorem storeByte_tLo (b : Byte) (s : State) : (storeByte b s).tLo = s.tLo := rfl
@[simp] theorem storeByte_tHi (b : Byte) (s : State) : (storeByte b s).tHi = s.tHi := rfl
@[simp] theorem storeByte_f0 (b : Byte) (s : State) : (storeByte b s).f0 = s.f0 := rfl
@[simp] theorem storeByte_f1 (b : Byte) (s : State) : (storeByte b s).f1 = s.f1 := rfl
@[simp] theorem storeByte_errc (b : Byte) (s : State) : (storeByte b s).errc = s.errc := rfl
@[simp] theorem storeByte_errs (b : Byte) (s : State) : (storeByte b s).errs = s.errs := rfl
@[simp] theorem storeByte_busy (b : Byte) (s : State) : (storeByte b s).busy = s.busy := rfl
@[simp] theorem storeByte_hidden (b : Byte) (s : State) : (storeByte b s).hidden = s.hidden := rfl
@[simp] theorem storeByte_host (b : Byte) (s : State) : (storeByte b s).host = s.host := rfl
@[simp] theorem storeByte_freeCount (b : Byte) (s : State) : (storeByte b s).freeCount = s.freeCount := rfl

/-- A buffer that is not full is left alone by the block trigger (rule R171). -/
theorem flushFull_notFull (s : State) (h : s.bufLen ≠ 64) : flushFull s = s := by simp [flushFull, h]

/-- A full buffer is counted, compressed and emptied (rule R171). -/
theorem flushFull_full (s : State) (h : s.bufLen = 64) :
    flushFull s = (startCompress (counterAdd 64 s)).setBufLen 0 := by simp [flushFull, h]

theorem appendBytes_append (as bs : List Byte) (s : State) :
    appendBytes (as ++ bs) s = appendBytes bs (appendBytes as s) := by
  induction as generalizing s with
  | nil => rfl
  | cons a as ih => exact ih _

/-- Bytes that fit are one `MemWrite` at `buf_len`, and nothing else changes (rule R172). -/
theorem appendBytes_fit (bytes : List Byte) (s : State) (h : s.bufLen.val + bytes.length ≤ 64) :
    appendBytes bytes s =
      (s.setBuf (Memory.writeBytes s.buf s.bufLen.val bytes h)).setBufLen ⟨s.bufLen.val + bytes.length, by omega⟩ := by
  induction bytes generalizing s with
  | nil => rfl
  | cons b bytes ih =>
    simp only [List.length_cons] at h
    have hNot : s.bufLen ≠ 64 := by intro hEq; rw [hEq] at h; simp at h
    have hLt : s.bufLen.val < 64 := by omega
    have hAddr : nextAddr s = ⟨s.bufLen.val, hLt⟩ := by simp [nextAddr, Nat.mod_eq_of_lt hLt]
    have hStep : appendByte b s =
        (s.setBuf (Memory.write s.buf ⟨s.bufLen.val, hLt⟩ b)).setBufLen ⟨s.bufLen.val + 1, by omega⟩ := by
      simp only [appendByte, flushFull_notFull s hNot, storeByte, hAddr]
    rw [appendBytes, hStep, ih]
    · simp only [Memory.writeBytes, State.setBuf, State.setBufLen, List.length_cons]
      congr 2; omega
    · simp; omega

/-- A further byte that finds the buffer full starts a compression, and the bytes then enter an empty buffer (rule R171). -/
theorem appendBytes_full (bytes : List Byte) (s : State) (h : s.bufLen = 64) (hb : bytes ≠ []) :
    appendBytes bytes s = appendBytes bytes ((startCompress (counterAdd 64 s)).setBufLen 0) := by
  cases bytes with
  | nil => exact absurd rfl hb
  | cons b bytes =>
    rw [appendBytes, appendBytes, appendByte, appendByte, flushFull_full s h,
      flushFull_notFull ((startCompress (counterAdd 64 s)).setBufLen 0) (by simp)]

/-- The state at the block trigger of bytes that do not fit: the buffer filled to 64 with the first of them. -/
def filled (bytes : List Byte) (s : State) : State := appendBytes (bytes.take (64 - s.bufLen.val)) s

/-- Bytes that do not fit, at most 64: they fill the buffer, start one compression, and the rest enters the empty buffer. -/
theorem appendBytes_trigger (bytes : List Byte) (s : State) (h : 64 < s.bufLen.val + bytes.length) :
    appendBytes bytes s =
      appendBytes (bytes.drop (64 - s.bufLen.val)) ((startCompress (counterAdd 64 (filled bytes s))).setBufLen 0) := by
  have hTake : (bytes.take (64 - s.bufLen.val)).length = 64 - s.bufLen.val := by
    rw [List.length_take]; have := s.bufLen.isLt; omega
  have hFull : (filled bytes s).bufLen = 64 := by
    rw [filled, appendBytes_fit _ _ (by rw [hTake]; have := s.bufLen.isLt; omega)]
    ext; simp [hTake]; have := s.bufLen.isLt; omega
  conv_lhs => rw [← List.take_append_drop (64 - s.bufLen.val) bytes, appendBytes_append]
  apply appendBytes_full _ _ hFull
  intro hNil
  have := congrArg List.length hNil
  simp at this
  have := s.bufLen.isLt; omega

/-! ### UPDATE's bytes -/

@[simp] theorem dataBytes_length (nb : Nat) (data : Word) : (dataBytes nb data).length = nb := by simp [dataBytes]

end Sys2Proof.Machine
end

