-- ==== Sys2Proof/Laws/Commands.lean ====
section
/-! SUPPORT. Everything each shared operation and each command can do, said once: later proofs cite these and do not unfold. -/

namespace Sys2Proof.Machine

/-- What a block trigger and the bytes after it may change: the counter, the buffer, `buf_len`, `busy` and the hidden fields. -/
structure SameButBuffer (s t : State) : Prop where
  cfg : t.cfg = s.cfg
  fsm : t.fsm = s.fsm
  chain : t.chain = s.chain
  f0 : t.f0 = s.f0
  f1 : t.f1 = s.f1
  errc : t.errc = s.errc
  errs : t.errs = s.errs
  host : t.host = s.host
  freeCount : t.freeCount = s.freeCount

theorem SameButBuffer.refl (s : State) : SameButBuffer s s := ⟨rfl, rfl, rfl, rfl, rfl, rfl, rfl, rfl, rfl⟩

theorem SameButBuffer.trans {s t u : State} (h1 : SameButBuffer s t) (h2 : SameButBuffer t u) : SameButBuffer s u :=
  ⟨h2.cfg.trans h1.cfg, h2.fsm.trans h1.fsm, h2.chain.trans h1.chain, h2.f0.trans h1.f0, h2.f1.trans h1.f1,
    h2.errc.trans h1.errc, h2.errs.trans h1.errs, h2.host.trans h1.host, h2.freeCount.trans h1.freeCount⟩

theorem flushFull_same (s : State) : SameButBuffer s (flushFull s) := by
  unfold flushFull
  split
  · exact ⟨rfl, rfl, rfl, rfl, rfl, rfl, rfl, rfl, rfl⟩
  · exact .refl s

theorem appendByte_same (b : Byte) (s : State) : SameButBuffer s (appendByte b s) :=
  (flushFull_same s).trans ⟨rfl, rfl, rfl, rfl, rfl, rfl, rfl, rfl, rfl⟩

/-- AppendByte on any bytes writes no other field (rule R170, "Fields written"). -/
theorem appendBytes_same (bytes : List Byte) (s : State) : SameButBuffer s (appendBytes bytes s) := by
  induction bytes generalizing s with
  | nil => exact .refl s
  | cons b bytes ih => exact (appendByte_same b s).trans (ih _)

theorem flushFull_buf (s : State) : (flushFull s).buf = s.buf := by unfold flushFull; split <;> rfl

/-- AppendByte keeps the canonical form of the buffer. -/
theorem appendBytes_wf (bytes : List Byte) (s : State) (h : Memory.wf s.buf = true) :
    Memory.wf (appendBytes bytes s).buf = true := by
  induction bytes generalizing s with
  | nil => exact h
  | cons b bytes ih =>
    apply ih
    simp only [appendByte, storeByte, State.setBufLen_buf, State.setBuf_buf, flushFull_buf]
    exact Memory.wf_write _ _ _ h

@[simp] theorem padBuffer_bufLen (s : State) : (padBuffer s).bufLen = s.bufLen := rfl
@[simp] theorem padBuffer_cfg (s : State) : (padBuffer s).cfg = s.cfg := rfl
@[simp] theorem padBuffer_fsm (s : State) : (padBuffer s).fsm = s.fsm := rfl
@[simp] theorem padBuffer_chain (s : State) : (padBuffer s).chain = s.chain := rfl
@[simp] theorem padBuffer_tLo (s : State) : (padBuffer s).tLo = s.tLo := rfl
@[simp] theorem padBuffer_tHi (s : State) : (padBuffer s).tHi = s.tHi := rfl
@[simp] theorem padBuffer_f0 (s : State) : (padBuffer s).f0 = s.f0 := rfl
@[simp] theorem padBuffer_f1 (s : State) : (padBuffer s).f1 = s.f1 := rfl
@[simp] theorem padBuffer_errc (s : State) : (padBuffer s).errc = s.errc := rfl
@[simp] theorem padBuffer_errs (s : State) : (padBuffer s).errs = s.errs := rfl
@[simp] theorem padBuffer_busy (s : State) : (padBuffer s).busy = s.busy := rfl
@[simp] theorem padBuffer_hidden (s : State) : (padBuffer s).hidden = s.hidden := rfl
@[simp] theorem padBuffer_host (s : State) : (padBuffer s).host = s.host := rfl
@[simp] theorem padBuffer_freeCount (s : State) : (padBuffer s).freeCount = s.freeCount := rfl

/-- The zero padding keeps the canonical form (rule R177). -/
theorem padBuffer_wf (s : State) (h : Memory.wf s.buf = true) : Memory.wf (padBuffer s).buf = true :=
  Memory.wf_writeBytes _ _ _ _ h

/-- What the buffer reads as after the zero padding (rule R177). -/
theorem padBuffer_read (s : State) (h : Memory.wf s.buf = true) (a : Fin 64) :
    Memory.read (padBuffer s).buf a = if s.bufLen.val ≤ a.val then 0 else Memory.read s.buf a := by
  rw [padBuffer, State.setBuf_buf, Memory.read_writeBytes _ _ _ _ _ h]
  have ha := a.isLt
  by_cases hle : s.bufLen.val ≤ a.val
  · rw [if_pos hle, if_pos ⟨hle, by simp only [List.length_replicate]; omega⟩]
    simp [List.getD_eq_getElem?_getD, List.getElem?_replicate]
    split <;> rfl
  · rw [if_neg hle, if_neg (fun hc => hle hc.1)]

/-- A misuse answers the error or the fault, by `STRICT` (rule R205). -/
theorem misuse_cases (code : ErrCode) (reason : Fault) (s : State) :
    (s.cfg.strict = true ∧ misuse code reason s = .next (raiseError code s)) ∨
      (s.cfg.strict = false ∧ misuse code reason s = .fault reason) := by
  unfold misuse
  cases s.cfg.strict <;> simp

/-- Everything UPDATE can do (rule R170). -/
theorem execUpdate_cases (nb : Nat) (data : Word) (s : State) :
    (s.fsm = .accum ∧ execUpdate nb data s = .next (succeed (appendBytes (dataBytes nb data) s))) ∨
      (s.fsm ≠ .accum ∧ s.cfg.strict = true ∧ execUpdate nb data s = .next (raiseError .misusedState s)) ∨
      (s.fsm ≠ .accum ∧ s.cfg.strict = false ∧ execUpdate nb data s = .fault .updateOutsideAccum) := by
  unfold execUpdate
  by_cases h : s.fsm = .accum
  · exact .inl ⟨h, by simp [h]⟩
  · rw [if_pos h]
    rcases misuse_cases .misusedState .updateOutsideAccum s with ⟨hs, he⟩ | ⟨hs, he⟩
    · exact .inr (.inl ⟨h, hs, he⟩)
    · exact .inr (.inr ⟨h, hs, he⟩)

/-- Everything FINAL can do (rule R175). -/
theorem execFinal_cases (s : State) :
    (s.fsm = .accum ∧ unaligned s = false ∧ execFinal s = .next (succeed ((finalBlock s).setFsm .final))) ∨
      (s.fsm = .accum ∧ unaligned s = true ∧ s.cfg.strict = true ∧ execFinal s = .next (raiseError .invalidArgument s)) ∨
      (s.fsm = .accum ∧ unaligned s = true ∧ s.cfg.strict = false ∧ execFinal s = .fault .unalignedLength) ∨
      (s.fsm ≠ .accum ∧ s.cfg.strict = true ∧ execFinal s = .next (raiseError .misusedState s)) ∨
      (s.fsm ≠ .accum ∧ s.cfg.strict = false ∧ execFinal s = .fault .finalOutsideAccum) := by
  unfold execFinal
  by_cases h : s.fsm = .accum
  · rw [if_neg (not_not.mpr h)]
    by_cases hu : unaligned s = true
    · rw [if_pos hu]
      rcases misuse_cases .invalidArgument .unalignedLength s with ⟨hs, he⟩ | ⟨hs, he⟩
      · exact .inr (.inl ⟨h, hu, hs, he⟩)
      · exact .inr (.inr (.inl ⟨h, hu, hs, he⟩))
    · exact .inl ⟨h, by simpa using hu, by rw [if_neg hu]⟩
  · rw [if_pos h]
    rcases misuse_cases .misusedState .finalOutsideAccum s with ⟨hs, he⟩ | ⟨hs, he⟩
    · exact .inr (.inr (.inr (.inl ⟨h, hs, he⟩)))
    · exact .inr (.inr (.inr (.inr ⟨h, hs, he⟩)))

/-- The length check of block-only mode (rule R176). -/
theorem unaligned_iff (s : State) :
    unaligned s = true ↔ s.cfg.blockOnly = true ∧ s.bufLen ≠ 0 ∧ s.bufLen ≠ 64 := by
  simp [unaligned]

/-! ### FinalBlock -/

@[simp] theorem finalBlock_cfg (s : State) : (finalBlock s).cfg = s.cfg := rfl
@[simp] theorem finalBlock_fsm (s : State) : (finalBlock s).fsm = s.fsm := rfl
@[simp] theorem finalBlock_chain (s : State) : (finalBlock s).chain = s.chain := rfl
@[simp] theorem finalBlock_tLo (s : State) : (finalBlock s).tLo = s.tLo + BitVec.ofNat 32 s.bufLen.val := counterAdd_tLo s.bufLen.val s
@[simp] theorem finalBlock_tHi (s : State) : (finalBlock s).tHi = (counterNext s.bufLen.val s).2 := rfl
@[simp] theorem finalBlock_f0 (s : State) : (finalBlock s).f0 = true := rfl
@[simp] theorem finalBlock_f1 (s : State) : (finalBlock s).f1 = false := rfl
@[simp] theorem finalBlock_buf (s : State) : (finalBlock s).buf = (padBuffer s).buf := rfl
@[simp] theorem finalBlock_bufLen (s : State) : (finalBlock s).bufLen = s.bufLen := rfl
@[simp] theorem finalBlock_errc (s : State) : (finalBlock s).errc = s.errc := rfl
@[simp] theorem finalBlock_errs (s : State) : (finalBlock s).errs = s.errs := rfl
@[simp] theorem finalBlock_busy (s : State) : (finalBlock s).busy = true := rfl
@[simp] theorem finalBlock_host (s : State) : (finalBlock s).host = s.host := rfl
@[simp] theorem finalBlock_freeCount (s : State) : (finalBlock s).freeCount = s.freeCount := rfl

/-- The rest of the schedule of the final compression is the pipeline on the padded block (rule R177). -/
theorem finalBlock_finishWork (s : State) :
    (finalBlock s).hidden.finishWork =
      pipeline (loadMessage (padBuffer s).buf)
        (initWork s.chain (finalBlock s).tLo (finalBlock s).tHi true false) :=
  startCompress_finishWork _

/-! ### UPDATE's one to four bytes -/

/-- The bytes of one UPDATE: either they fit and no compression starts, or one starts and they go on in an empty buffer. -/
theorem appendBytes_upTo64 (s : State) (bytes : List Byte) (h64 : bytes.length ≤ 64) (hb : s.busy = false) :
    (s.bufLen.val + bytes.length ≤ 64 ∧ (appendBytes bytes s).busy = false ∧ (appendBytes bytes s).tLo = s.tLo ∧
      (appendBytes bytes s).tHi = s.tHi ∧ (appendBytes bytes s).bufLen.val = s.bufLen.val + bytes.length ∧
      (appendBytes bytes s).hidden = s.hidden) ∨
    (64 < s.bufLen.val + bytes.length ∧ (appendBytes bytes s).busy = true ∧
      (appendBytes bytes s).tLo = s.tLo + 64 ∧ (appendBytes bytes s).tHi = (counterNext 64 s).2 ∧
      (appendBytes bytes s).bufLen.val = s.bufLen.val + bytes.length - 64 ∧
      (appendBytes bytes s).hidden =
        { hIn := s.chain, m := loadMessage (filled bytes s).buf
          v := initWork s.chain (s.tLo + 64) (counterNext 64 s).2 s.f0 s.f1, rnd := 0, stp := 0
          cyc := s.cfg.compressCycles }) := by
  by_cases hfit : s.bufLen.val + bytes.length ≤ 64
  · left
    rw [appendBytes_fit _ _ hfit]
    simp [hfit, hb]
  · right
    have hlt := s.bufLen.isLt
    have hk : s.bufLen.val + (List.take (64 - s.bufLen.val) bytes).length ≤ 64 := by simp; omega
    have hfill : filled bytes s = _ := appendBytes_fit _ _ hk
    have e : appendBytes bytes s = _ := appendBytes_trigger _ _ (by omega)
    have eRest := appendBytes_fit (bytes.drop (64 - s.bufLen.val))
      ((startCompress (counterAdd 64 (filled bytes s))).setBufLen 0) (by simp; omega)
    rw [eRest] at e
    have hcn : counterNext 64 (filled bytes s) = counterNext 64 s := by rw [hfill]; rfl
    have sf := appendBytes_same (List.take (64 - s.bufLen.val) bytes) s
    have sft : (filled bytes s).tLo = s.tLo := by rw [hfill]; rfl
    change SameButBuffer s (filled bytes s) at sf
    rw [e]
    refine ⟨by omega, rfl, ?_, ?_, ?_, ?_⟩
    · simp [sft]
    · simp [hcn]
    · simp; omega
    · simp [hcn, sft, sf.chain, sf.f0, sf.f1, sf.cfg]

/-- What the filled buffer of a block trigger reads as (rule R171): the bytes it held, then the first ones of the command. -/
theorem filled_read (bytes : List Byte) (s : State) (h : 64 ≤ s.bufLen.val + bytes.length) (hWf : Memory.wf s.buf = true)
    (a : Fin 64) :
    Memory.read (filled bytes s).buf a =
      if s.bufLen.val ≤ a.val then bytes.getD (a.val - s.bufLen.val) 0 else Memory.read s.buf a := by
  have ha := a.isLt
  have hlt := s.bufLen.isLt
  have hlen : (List.take (64 - s.bufLen.val) bytes).length = 64 - s.bufLen.val := by simp; omega
  rw [filled, appendBytes_fit _ _ (by omega)]
  simp only [State.setBufLen_buf, State.setBuf_buf]
  rw [Memory.read_writeBytes _ _ _ _ _ hWf, hlen]
  by_cases hle : s.bufLen.val ≤ a.val
  · rw [if_pos ⟨hle, by omega⟩, if_pos hle]
    simp only [List.getD_eq_getElem?_getD, List.getElem?_take]
    rw [if_pos (by omega)]
  · rw [if_neg (by omega), if_neg hle]

end Sys2Proof.Machine
end

