-- ==== Sys2Proof/Laws/Decode.lean ====
section
/-! SUPPORT. The decoder: its cases, and the four encodings of UPDATE. -/

namespace Sys2Proof

/-- Every 32-bit word is the four fields of rule R73. -/
theorem word_of_fields (w : Word) :
    w.toNat = (opc w).toNat + 2 ^ 4 * (rsv0 w).toNat + 2 ^ 8 * (nbm1 w).toNat + 2 ^ 10 * (rsv1 w).toNat := by
  have hw := w.isLt
  simp only [opc, rsv0, nbm1, rsv1, BitVec.extractLsb'_toNat, Nat.shiftRight_eq_div_pow]
  omega

/-- Everything the decoder can answer with a command: which word, and which command (rule R79). -/
theorem decode_cases (w data : Word) (i : Instr) (h : decode w data = .instr i) :
    (w = 0x00000000 ∧ i = .nop) ∨ (w = 0x00000001 ∧ i = .init) ∨ (w = 0x00000003 ∧ i = .final) ∨
      (∃ n : Nat, n < 4 ∧ w = BitVec.ofNat 32 (2 + 256 * n) ∧ i = .update (n + 1) data) := by
  have hFields := word_of_fields w
  unfold decode at h
  split at h
  · cases h
  split at h
  · cases h
  split at h
  · cases h
  split at h
  · cases h
  rename_i hOpc h0 h1 hNb
  simp only [ne_eq, not_not] at h0 h1
  rw [h0, h1] at hFields
  simp only [not_and, ne_eq, not_not] at hNb
  split at h
  · rename_i hz
    have hn := hNb (by rw [hz]; decide)
    cases h
    refine .inl ⟨BitVec.eq_of_toNat_eq ?_, rfl⟩
    rw [hFields, hz, hn]; rfl
  split at h
  · rename_i hz
    have hn := hNb (by rw [hz]; decide)
    cases h
    refine .inr (.inl ⟨BitVec.eq_of_toNat_eq ?_, rfl⟩)
    rw [hFields, hz, hn]; rfl
  split at h
  · rename_i hz
    cases h
    refine .inr (.inr (.inr ⟨(nbm1 w).toNat, (nbm1 w).isLt, BitVec.eq_of_toNat_eq ?_, rfl⟩))
    have := (nbm1 w).isLt
    rw [hFields, hz]; simp; omega
  · rename_i hn0 hn1 hn2
    have hz : opc w = 3 := by
      by_contra hne
      exact hOpc ⟨hn0, hn1, hn2, hne⟩
    have hn := hNb hn2
    cases h
    refine .inr (.inr (.inl ⟨BitVec.eq_of_toNat_eq ?_, rfl⟩))
    rw [hFields, hz, hn]; rfl

/-- What the decoder accepts is well-formed (rule R75). -/
theorem decode_wellFormed (w data : Word) (i : Instr) (h : decode w data = .instr i) : i.wellFormed = true := by
  rcases decode_cases w data i h with ⟨-, rfl⟩ | ⟨-, rfl⟩ | ⟨-, rfl⟩ | ⟨n, hn, -, rfl⟩
  · rfl
  · rfl
  · rfl
  · simp only [Instr.wellFormed, Bool.and_eq_true, decide_eq_true_eq]; omega

/-- The formula of rule R77 is what the decoder decides. -/
theorem decode_illegal_iff (w data : Word) : (∃ why, decode w data = .illegal why) ↔ legal w = false := by
  unfold decode legal
  constructor
  · rintro ⟨why, h⟩
    by_contra hLegal
    simp only [Bool.not_eq_false, Bool.and_eq_true, Bool.or_eq_true, beq_iff_eq] at hLegal
    obtain ⟨⟨⟨h1, h2⟩, h3⟩, h4⟩ := hLegal
    have hOpc : ¬(opc w ≠ 0x0 ∧ opc w ≠ 0x1 ∧ opc w ≠ 0x2 ∧ opc w ≠ 0x3) := by
      rintro ⟨a, b, c, d⟩; rcases h1 with ((h1 | h1) | h1) | h1 <;> contradiction
    have hNb : ¬(opc w ≠ 0x2 ∧ nbm1 w ≠ 0) := by rintro ⟨a, b⟩; rcases h4 with h4 | h4 <;> contradiction
    rw [if_neg hOpc, if_neg (not_not.mpr h2), if_neg (not_not.mpr h3), if_neg hNb] at h
    split at h
    · cases h
    split at h
    · cases h
    split at h <;> cases h
  · intro h
    by_cases hOpc : opc w ≠ 0x0 ∧ opc w ≠ 0x1 ∧ opc w ≠ 0x2 ∧ opc w ≠ 0x3
    · exact ⟨.reservedOpcode, by rw [if_pos hOpc]⟩
    by_cases h0 : rsv0 w ≠ 0
    · exact ⟨.rsv0Nonzero, by rw [if_neg hOpc, if_pos h0]⟩
    by_cases h1 : rsv1 w ≠ 0
    · exact ⟨.rsv1Nonzero, by rw [if_neg hOpc, if_neg h0, if_pos h1]⟩
    by_cases hNb : opc w ≠ 0x2 ∧ nbm1 w ≠ 0
    · exact ⟨.nbm1Nonzero, by rw [if_neg hOpc, if_neg h0, if_neg h1, if_pos hNb]⟩
    exfalso
    have hLegal : legal w = true := by
      simp only [legal, Bool.and_eq_true, Bool.or_eq_true, beq_iff_eq]
      refine ⟨⟨⟨?_, not_not.mp h0⟩, not_not.mp h1⟩, ?_⟩
      · by_contra hNone
        simp only [not_or] at hNone
        exact hOpc ⟨hNone.1.1.1, hNone.1.1.2, hNone.1.2, hNone.2⟩
      · by_contra hNone
        simp only [not_or] at hNone
        exact hNb hNone
    unfold legal at hLegal
    rw [h] at hLegal
    cases hLegal

end Sys2Proof
end

