-- ==== Sys2Proof/Laws/PerInstr.lean ====
section
/-! SUPPORT. Statements about every command as syntax, one lemma per constructor (LAWS.json). -/

namespace Sys2Proof.Laws.EncodesToItsRow

/-- The word of a well-formed command selects the command's own row of the opcode map (rule R78). -/
def Statement (i : Instr) : Prop := i.wellFormed = true → i.row.selects (encode i).1 = true

theorem nop : Statement .nop := fun _ => by decide

theorem init : Statement .init := fun _ => by decide

theorem update (nb : Nat) (data : Word) : Statement (.update nb data) := by
  intro h
  simp only [Instr.wellFormed, Bool.and_eq_true, decide_eq_true_eq] at h
  obtain rfl | rfl | rfl | rfl : nb = 1 ∨ nb = 2 ∨ nb = 3 ∨ nb = 4 := by omega
  all_goals simp [Instr.row, OpcodeRow.selects, encode, updateRow]

theorem final : Statement .final := fun _ => by decide

end Sys2Proof.Laws.EncodesToItsRow
end

