-- ==== Sys2Proof/Laws/Step.lean ====
section
/-! SUPPORT. Everything an edge can do, said once. -/

namespace Sys2Proof.Machine

/-- Everything a step that goes on can be: a reset edge, a busy edge, an idle edge, a decoded command, an illegal word. -/
theorem step_cases (s t : State) (h : step s = .next t) :
    (edgeEvent s = .reset ∧ t = resetEdge s) ∨
      (edgeEvent s = .busy ∧ t = busyEdge (clockHost false s)) ∨
      (edgeEvent s = .idle ∧ t = clockHost false s) ∨
      (∃ w d i, edgeEvent s = .accept w d ∧ decode w d = .instr i ∧ exec i (clockHost true s) = .next t) ∨
      (∃ w d why, edgeEvent s = .accept w d ∧ decode w d = .illegal why ∧
        t = raiseError .illegalCommand (clockHost true s)) := by
  unfold step at h
  cases he : edgeEvent s with
  | reset => rw [he] at h; cases h; exact .inl ⟨rfl, rfl⟩
  | busy => rw [he] at h; cases h; exact .inr (.inl ⟨rfl, rfl⟩)
  | idle => rw [he] at h; cases h; exact .inr (.inr (.inl ⟨rfl, rfl⟩))
  | accept w d =>
    rw [he] at h
    simp only [acceptCommand] at h
    cases hd : decode w d with
    | instr i => rw [hd] at h; exact .inr (.inr (.inr (.inl ⟨w, d, i, rfl, hd, h⟩)))
    | illegal why => rw [hd] at h; cases h; exact .inr (.inr (.inr (.inr ⟨w, d, why, rfl, hd, rfl⟩)))

/-- The event of an edge, by the levels of `rst` and `busy` and the head of the queue (rule R70, rule R211). -/
theorem edgeEvent_accept_iff (s : State) (w d : Word) :
    edgeEvent s = .accept w d ↔
      rstNow s = false ∧ s.busy = false ∧ ∃ rest, s.host.queue = .command w d :: rest := by
  unfold edgeEvent
  cases rstNow s <;> cases s.busy <;> simp
  split <;> simp_all

theorem edgeEvent_busy_iff (s : State) : edgeEvent s = .busy ↔ rstNow s = false ∧ s.busy = true := by
  unfold edgeEvent
  cases rstNow s <;> cases s.busy <;> simp
  split <;> simp

theorem edgeEvent_reset_iff (s : State) : edgeEvent s = .reset ↔ rstNow s = true := by
  unfold edgeEvent
  cases rstNow s <;> cases s.busy <;> simp
  split <;> simp

/-- Everything a command of the map can do when it goes on. -/
theorem exec_cases (i : Instr) (s t : State) (h : exec i s = .next t) :
    (i = .nop ∧ t = succeed s) ∨
      (i = .init ∧ execInit s = .next t) ∨
      (∃ nb data, i = .update nb data ∧ s.fsm = .accum ∧ t = succeed (appendBytes (dataBytes nb data) s)) ∨
      (i = .final ∧ s.fsm = .accum ∧ unaligned s = false ∧ t = succeed ((finalBlock s).setFsm .final)) ∨
      (s.cfg.strict = true ∧ ∃ code, code ≠ .ok ∧ t = raiseError code s ∧ i ≠ .init ∧ i ≠ .nop) := by
  cases i with
  | nop => cases h; exact .inl ⟨rfl, rfl⟩
  | init => exact .inr (.inl ⟨rfl, h⟩)
  | update nb data =>
    change execUpdate nb data s = .next t at h
    rcases execUpdate_cases nb data s with ⟨hf, he⟩ | ⟨hf, hs, he⟩ | ⟨hf, hs, he⟩ <;> rw [he] at h <;> cases h
    · exact .inr (.inr (.inl ⟨nb, data, rfl, hf, rfl⟩))
    · exact .inr (.inr (.inr (.inr ⟨hs, _, by simp, rfl, by simp, by simp⟩)))
  | final =>
    change execFinal s = .next t at h
    rcases execFinal_cases s with ⟨hf, hu, he⟩ | ⟨hf, hu, hs, he⟩ | ⟨hf, hu, hs, he⟩ | ⟨hf, hs, he⟩ | ⟨hf, hs, he⟩ <;>
      rw [he] at h <;> cases h
    · exact .inr (.inr (.inr (.inl ⟨rfl, hf, hu, rfl⟩)))
    · exact .inr (.inr (.inr (.inr ⟨hs, _, by simp, rfl, by simp, by simp⟩)))
    · exact .inr (.inr (.inr (.inr ⟨hs, _, by simp, rfl, by simp, by simp⟩)))

end Sys2Proof.Machine
end

