-- ==== Sys2Proof/Machine/Assembler.lean ====
section
/-! DEFINITION. The textual form of commands, host actions and pseudo-instructions (rule R83, rule R84, rule R86, rule R87): one
per line, `;` starts a comment, numbers in decimal or `0x` hexadecimal. What the rules leave open about the text is in log 22. -/

namespace Sys2Proof.Machine

/-- The text before a comment. -/
def stripComment : List Char → List Char
  | [] => []
  | c :: rest => if c = ';' then [] else c :: stripComment rest

/-- The words of a line; `current` is the word being read, last character first. -/
def splitWords : (current : List Char) → List Char → List (List Char)
  | current, [] => if current.isEmpty then [] else [current.reverse]
  | current, c :: rest =>
    if c = ' ' ∨ c = ',' ∨ c = '\t' ∨ c = '\r' then
      if current.isEmpty then splitWords [] rest else current.reverse :: splitWords [] rest
    else splitWords (c :: current) rest

/-- A digit of the radix 10 or 16. -/
def digitValue (radix : Nat) (c : Char) : Option Nat :=
  let n := c.toNat
  let d :=
    if 48 ≤ n ∧ n ≤ 57 then some (n - 48)
    else if 65 ≤ n ∧ n ≤ 70 then some (n - 55)
    else if 97 ≤ n ∧ n ≤ 102 then some (n - 87)
    else none
  d.filter fun k => decide (k < radix)

/-- The digits of a number, most significant first, after those already read. -/
def digitsValue (radix : Nat) : (soFar : Nat) → List Char → Option Nat
  | soFar, [] => some soFar
  | soFar, c :: rest =>
    match digitValue radix c with
    | some d => digitsValue radix (soFar * radix + d) rest
    | none => none

/-- A number in decimal or `0x` hexadecimal (rule R83), with at least one digit. -/
def parseNumber : List Char → Option Nat
  | [] => none
  | ['0', 'x'] => none
  | '0' :: 'x' :: digits => digitsValue 16 0 digits
  | digits => digitsValue 10 0 digits

/-- `<data32>`: a number that a 32-bit word holds. -/
def parseData (text : List Char) : Option Word :=
  match parseNumber text with
  | some n => if n < 2 ^ 32 then some (BitVec.ofNat 32 n) else none
  | none => none

/-- The name of a read-port register after READ (rule R84). -/
def parseReadName (text : List Char) : Option ReadName :=
  if text = "STATUS".toList then some .status
  else if text = "COUNTER_LO".toList then some .counterLo
  else if text = "COUNTER_HI".toList then some .counterHi
  else if text.take 6 = "DIGEST".toList ∧ text.length = 7 then
    match digitsValue 10 0 (text.drop 6) with
    | some k => if h : k < 8 then some (.digest ⟨k, h⟩) else none
    | none => none
  else none

/-- `UPDATE.<nb> <data32>`, `nb` in 1..4. -/
def parseUpdate (head data : List Char) : Option HostAction :=
  if head.take 7 = "UPDATE.".toList then
    match parseNumber (head.drop 7), parseData data with
    | some nb, some word => if (Instr.update nb word).wellFormed then some (.command (.update nb word)) else none
    | _, _ => none
  else none

/-- The bytes of a pseudo-instruction: numbers below 256. -/
def parseBytes : List (List Char) → Option (List Byte)
  | [] => some []
  | text :: rest =>
    match parseNumber text, parseBytes rest with
    | some n, some bytes => if n < 2 ^ 8 then some (BitVec.ofNat 8 n :: bytes) else none
    | _, _ => none

/-- A pseudo-instruction (rule R86, rule R87); `HASH_BLOCKS k` takes exactly `64k` bytes. -/
def parsePseudo (head : List Char) (operands : List (List Char)) : Option (List HostAction) :=
  if head = "UPDATE_BYTES".toList then (parseBytes operands).map fun bytes => (updateBytes bytes).map .command
  else if head = "HASH".toList then (parseBytes operands).map hashProgram
  else if head = "HASH_BLOCKS".toList then
    match operands with
    | count :: rest =>
      match parseNumber count, parseBytes rest with
      | some k, some bytes => if bytes.length = 64 * k then some (hashBlocks k bytes) else none
      | _, _ => none
    | [] => none
  else none

/-- The words of one line as a command or a host action. -/
def parseAction : List (List Char) → Option HostAction
  | [head] =>
    if head = "NOP".toList then some (.command .nop)
    else if head = "INIT".toList then some (.command .init)
    else if head = "FINAL".toList then some (.command .final)
    else if head = "WAIT".toList then some .wait
    else none
  | [head, operand] =>
    if head = "READ".toList then (parseReadName operand).map .read else parseUpdate head operand
  | _ => none

/-- What the words of one line stand for. -/
def parseWords : List (List Char) → Option (List HostAction)
  | [] => some []
  | head :: operands =>
    match parseAction (head :: operands) with
    | some action => some [action]
    | none => parsePseudo head operands

/-- One line of program text: nothing for an empty line or a comment, `none` where it has no meaning. -/
def assembleLine (line : String) : Option (List HostAction) := parseWords (splitWords [] (stripComment line.toList))

/-- A program text, line by line; `none` where some line has no meaning. -/
def assemble : List String → Option (List HostAction)
  | [] => some []
  | line :: rest =>
    match assembleLine line, assemble rest with
    | some actions, some more => some (actions ++ more)
    | _, _ => none

end Sys2Proof.Machine
end

