-- ==== Sys2Proof/Tests/Slice0.lean ====
section
/-! SUPPORT. The model's own tests. Every expected result is from spec/95_test_vectors.md or from the rule its comment names, never
from the model. `witness_<Name>` shows states and operands that meet all hypotheses of the obligation `<Name>` together, each
clause at the ends of its range. -/

namespace Sys2Proof.Tests

open Sys2Proof Sys2Proof.Machine

/-! ### Small states and views -/

/-- The state after INIT in the setting of 95_test_vectors.md. -/
def fresh : State := { State.reset with fsm := .accum, chain := initChain }

/-- ACCUM with `n` bytes 1, 2, 3, ... in the buffer. -/
def holding (n : Fin 65) : State :=
  { fresh with buf := (List.range n.val).map fun k => (k, BitVec.ofNat 8 (k + 1)), bufLen := n }

/-- After FINAL of the bytes 1, ..., `n`, with the compression done (the value of `chain` is of no account here). -/
def finished (n : Fin 65) : State := { holding n with fsm := .final, f0 := true, tLo := BitVec.ofNat 32 n.val }

/-- The same state under other parameters. -/
def under (strict blockOnly carry : Bool) (cycles : Nat) (s : State) : State :=
  { s with cfg := { strict := strict, blockOnly := blockOnly, counterCarry64 := carry, compressCycles := cycles } }

/-- The same state with the host presenting a command next. -/
def presenting (word data : Word) (s : State) : State := { s with host := { rstWire := [], queue := [.command word data] } }

/-- A compression that an UPDATE of one byte started, all its cycles left. -/
def working : State := { startCompress { holding 64 with tLo := 64 } with bufLen := 1 }

/-- What `f` sees of the next state; false of a stop. -/
def sees (o : Host.Outcome State Fault Refusal) (f : State → Bool) : Bool :=
  match o with
  | .next t => f t
  | .fault _ => false
  | .refused _ => false

/-- The outcome is this fault. -/
def faults (o : Host.Outcome State Fault Refusal) (r : Fault) : Bool :=
  match o with
  | .next _ => false
  | .fault q => q == r
  | .refused _ => false

/-- STATUS and COUNTER_LO of the next state with its busy interval collapsed (section 2.9). -/
def shows (o : Host.Outcome State Fault Refusal) (status lo : Nat) : Bool :=
  sees o fun t => (statusWord { t with busy := false }).toNat == status && t.tLo.toNat == lo

/-! ### Well-formedness (rule R75) -/

theorem test_wellFormed_refuses_no_bytes : (Instr.update 0 0x41).wellFormed = false := by decide

theorem test_wellFormed_refuses_five_bytes : (Instr.update 5 0x41).wellFormed = false := by decide

theorem test_wellFormed_accepts_the_range :
    (Instr.update 1 0).wellFormed = true ∧ (Instr.update 4 0).wellFormed = true ∧ Instr.nop.wellFormed = true ∧
      Instr.init.wellFormed = true ∧ Instr.final.wellFormed = true := by decide

/-! ### Decoding: words written out from rule R73 as RSV1, NBM1, RSV0, OPC (sections 2.11) -/

theorem test_decode_nop : decode (0#22 ++ 0b00#2 ++ 0b0000#4 ++ 0b0000#4) 0xFFFFFFFF = .instr .nop := by decide

theorem test_decode_init : decode (0#22 ++ 0b00#2 ++ 0b0000#4 ++ 0b0001#4) 0xFFFFFFFF = .instr .init := by decide

theorem test_decode_update :
    decode (0#22 ++ 0b00#2 ++ 0b0000#4 ++ 0b0010#4) 0x41 = .instr (.update 1 0x41) ∧
      decode (0#22 ++ 0b01#2 ++ 0b0000#4 ++ 0b0010#4) 0x4241 = .instr (.update 2 0x4241) ∧
      decode (0#22 ++ 0b10#2 ++ 0b0000#4 ++ 0b0010#4) 0x636261 = .instr (.update 3 0x636261) ∧
      decode (0#22 ++ 0b11#2 ++ 0b0000#4 ++ 0b0010#4) 0x64636261 = .instr (.update 4 0x64636261) := by decide

theorem test_decode_final : decode (0#22 ++ 0b00#2 ++ 0b0000#4 ++ 0b0011#4) 0xFFFFFFFF = .instr .final := by decide

theorem test_decode_illegal_fields :
    decode 0x00000101 0 = .illegal .nbm1Nonzero ∧ decode 0x00000103 0 = .illegal .nbm1Nonzero ∧
      decode 0x00000100 0 = .illegal .nbm1Nonzero ∧ decode 0x00000012 0 = .illegal .rsv0Nonzero ∧
      decode 0x00000402 0 = .illegal .rsv1Nonzero ∧ decode 0x80000002 0 = .illegal .rsv1Nonzero := by decide

theorem test_decode_illegal_opcodes :
    ∀ k : Fin 12, decode (BitVec.ofNat 32 (k.val + 4)) 0 = .illegal .reservedOpcode := by decide

theorem test_decode_all_ones : legal 0xFFFFFFFF = false := by decide

/-- The encodings of rule R83. -/
theorem test_encode :
    (encode .nop).1 = 0x00000000 ∧ (encode .init).1 = 0x00000001 ∧ encode (.update 1 0x41) = (0x00000002, 0x41) ∧
      encode (.update 2 0x41) = (0x00000102, 0x41) ∧ encode (.update 3 0x636261) = (0x00000202, 0x636261) ∧
      encode (.update 4 0x64636261) = (0x00000302, 0x64636261) ∧ (encode .final).1 = 0x00000003 := by decide

theorem test_decodeTableWord :
    decodeTableWord 32 0x00000302 = some (.update 4 0) ∧ decodeTableWord 64 0x6463626100000302 = some (.update 4 0x64636261) ∧
      decodeTableWord 32 0x00000103 = none := by decide

/-! ### Steps: each command as the first after reset (sections 2.9, 2.10) -/

/-- Section 2.9 for NOP and INIT, section 2.10 for UPDATE and FINAL in EMPTY; INIT's `chain` is the example of rule R164. -/
theorem test_step_first_command :
    shows (step (State.reset.withFetchWord 32 0)) 0x01000000 0 = true ∧
      shows (step (State.reset.withFetchWord 32 1)) 0x01000001 0 = true ∧
      sees (step (State.reset.withFetchWord 32 1)) (fun t => t.chain == #v[0x6B08E647, 0xBB67AE85, 0x3C6EF372, 0xA54FF53A,
        0x510E527F, 0x9B05688C, 0x1F83D9AB, 0x5BE0CD19]) = true ∧
      shows (step (State.reset.withFetchWord 32 2)) 0x01060000 0 = true ∧
      shows (step (State.reset.withFetchWord 32 3)) 0x01060000 0 = true := by decide

/-- Section 2.10's two rows of illegal words: with `STRICT = 1`, and with `STRICT = 0`. -/
theorem test_step_illegal :
    shows (step (fresh.withFetchWord 32 0x103)) 0x01070001 0 = true ∧
      shows (step ((under false false false 1 fresh).withFetchWord 32 4)) 0x00070001 0 = true := by decide

/-- Rule R161's example: after a failed UPDATE, NOP gives ERRC = 0 and ERRS = 1. -/
theorem test_nop_keeps_errs :
    sees (exec .nop { State.reset with errc := .misusedState, errs := true }) (fun t => t.errc == .ok && t.errs) = true := by
  decide

theorem test_init_clears_errs : shows (exec .init { finished 3 with errc := .misusedState, errs := true }) 0x01000001 0 = true := by
  decide

/-- Rule R170's example, `buf_len = 64` and `UPDATE.2 0x00004241`; section 2.9's row of `buf_len` 60, which starts nothing. -/
theorem test_update_around_full :
    sees (exec (.update 4 0x01010101) (holding 60)) (fun t => !t.busy && (statusWord t).toNat == 0x01004001) = true ∧
      shows (exec (.update 2 0x00004241) (holding 64)) 0x01000201 0x40 = true ∧
      sees (exec (.update 2 0x00004241) (holding 64)) (fun t =>
        t.busy && Memory.read t.buf 0 == 0x41 && Memory.read t.buf 1 == 0x42 && t.hidden.m[0] == 0x04030201) = true := by
  decide

/-- Section 2.9, the row of `buf_len = 63`: the first byte fills the buffer, the second starts the compression. -/
theorem test_update_split :
    shows (exec (.update 4 0xDDCCBBAA) (holding 63)) 0x01000301 0x40 = true ∧
      sees (exec (.update 4 0xDDCCBBAA) (holding 63)) (fun t =>
        Memory.read t.buf 0 == 0xBB && Memory.read t.buf 2 == 0xDD && t.hidden.m[15] == 0xAA3F3E3D) = true := by
  decide

theorem test_final_pads :
    shows (exec .final { holding 3 with buf := [(0, 0x61), (1, 0x62), (2, 0x63), (9, 0x77)] }) 0x0100030A 3 = true ∧
      sees (exec .final { holding 3 with buf := [(0, 0x61), (1, 0x62), (2, 0x63), (9, 0x77)] }) (fun t =>
        t.busy && t.hidden.m == #v[0x00636261, 0, 0, 0, 0, 0, 0, 0, 0, 0, 0, 0, 0, 0, 0, 0]) = true := by
  decide

/-- Section 2.10: the two misuses and the unaligned length, checked. -/
theorem test_errors_strict :
    shows (exec .final (finished 3)) 0x0106030A 3 = true ∧
      shows (exec .final (under true true false 1 (holding 3))) 0x03050301 0 = true ∧
      shows (exec .final (under true true false 1 (finished 64))) 0x0306400A 64 = true := by decide

/-- Section 2.10: the same with `STRICT = 0`. -/
theorem test_errors_unchecked :
    faults (exec (.update 1 0x41) (under false false false 1 State.reset)) .updateOutsideAccum = true ∧
      faults (exec .final (under false false false 1 (finished 3))) .finalOutsideAccum = true ∧
      faults (exec .final (under false true false 1 (holding 3))) .unalignedLength = true := by decide

/-- Rule R230: reset abandons a compression and does not take the presented command. -/
theorem test_step_reset :
    sees (step { presenting 1 0 working with host := { rstWire := [true], queue := [.command 1 0] } }) (fun t =>
      (statusWord t).toNat == 0x01000000 && t.host.queue == [.command 1 0] && !t.busy) = true := by decide

/-- Rule R245 with COMPRESS_CYCLES = 1: the first busy edge completes; the presented command waits (rule R70). -/
theorem test_step_busy :
    sees (step (presenting 1 0 working)) (fun t => !t.busy && t.host.queue == [.command 1 0] && t.fsm == .accum) = true := by
  decide

/-! ### Primitives, counter, G, schedule and compression (sections 2.1 to 2.8) -/

theorem test_load32le :
    load32le [(0, 0x01), (1, 0x02), (2, 0x03), (3, 0x04), (4, 0xFF), (6, 0x80), (7, 0x7F)] 0 (by omega) = 0x04030201 ∧
      load32le [(0, 0x01), (1, 0x02), (2, 0x03), (3, 0x04), (4, 0xFF), (6, 0x80), (7, 0x7F)] 4 (by omega) = 0x7F8000FF := by
  decide

theorem test_store32le :
    store32le 0xDEADBEEF = [0xEF, 0xBE, 0xAD, 0xDE] ∧ store32le 0x80000000 = [0x00, 0x00, 0x00, 0x80] := by decide

theorem test_rotr :
    rotr 0x12345678 7 = 0xF02468AC ∧ rotr 0x12345678 8 = 0x78123456 ∧ rotr 0x12345678 12 = 0x67812345 ∧
      rotr 0x12345678 16 = 0x56781234 ∧ rotr 0xDEADBEEF 31 = 0xBD5B7DDF := by decide

theorem test_add_xor :
    add32 0xFFFFFFFF 1 = 0 ∧ add32 0x6B08E647 0x510E527F = 0xBC1738C6 ∧ xor32 0x510E527F 3 = 0x510E527C := by decide

/-- Section 2.8, rows 3 and 6, both settings. -/
theorem test_counterAdd :
    counterNext 64 { State.reset with tLo := 0xFFFFFFC0 } = (0, 0) ∧
      counterNext 64 (under true false true 1 { State.reset with tLo := 0xFFFFFFC0 }) = (0, 1) ∧
      counterNext 1 { State.reset with tLo := 0xFFFFFFFF, tHi := 0xFFFFFFFF } = (0, 0xFFFFFFFF) ∧
      counterNext 1 (under true false true 1 { State.reset with tLo := 0xFFFFFFFF, tHi := 0xFFFFFFFF }) = (0, 0) := by decide

/-- Section 2.3, the rows of `m2 = 1` and of the all-different operands. -/
theorem test_mixG :
    mixG { a := 0, b := 0, c := 0, d := 0 } 0 1 = { a := 0x00000001, b := 0x00020000, c := 0x01000000, d := 0x01000000 } ∧
      mixG { a := 0x01234567, b := 0x89ABCDEF, c := 0xFEDCBA98, d := 0x76543210 } 0x11111111 0x22222222 =
        { a := 0x183C167F, b := 0x6374B677, c := 0xE062F447, d := 0xCB0E4BFB } := by decide

/-- Section 2.4, round 1: the step of each index and the indices of its words. -/
theorem test_schedule_round_one :
    ((List.finRange 8).map fun i => ((firstIndex 1 i).val, (secondIndex 1 i).val)) =
      [(14, 10), (4, 8), (9, 15), (13, 6), (1, 12), (0, 2), (11, 7), (5, 3)] := by decide

/-- The words of the block "abc" (section 2.1). -/
def abcWords : Vector Word 16 := #v[0x00636261, 0, 0, 0, 0, 0, 0, 0, 0, 0, 0, 0, 0, 0, 0, 0]

/-- Section 2.5, "after init" and "after round 0": the diagonal step 7 is (3,4,9,14). -/
theorem test_round_zero :
    mixRound abcWords (initWork initChain 3 0 true false) 0 =
      #v[0x16A3242E, 0xD7B5E238, 0xCE8CE24B, 0x927AEDE1, 0xA7B430D9, 0x93A4A14E, 0xA44E7C31, 0x41D4759B,
         0x95BF33D3, 0x9A99C181, 0x608A3A6B, 0xB666383E, 0x7A8DD50F, 0xBE378ED7, 0x353D1EE6, 0x3BB44C6B] := by decide

set_option maxRecDepth 100000 in
/-- Section 2.5, the fold. -/
theorem test_compress_abc :
    compressWords initChain abcWords 3 0 true false =
      #v[0x8C5E8C50, 0xE2147C32, 0xA32BA7E1, 0x2F45EB4E, 0x208B4537, 0x293AD69E, 0x4C9B994D, 0x82596786] := by decide

set_option maxRecDepth 100000 in
/-- Section 2.6, row 3: `t_hi` enters the compression. -/
theorem test_compress_high_counter :
    compress initChain [] 0 1 false false =
      #v[0x59EEB13A, 0xB6843D0B, 0xA311973A, 0x0B4E4C44, 0x2DBC4FE3, 0xF7F3B7D2, 0x301B7CDD, 0x683606E7] := by decide

set_option maxRecDepth 100000 in
/-- Section 2.6, row 4: `f1` enters the compression. -/
theorem test_compress_last_node :
    compress initChain [] 0 0 false true =
      #v[0x1BAD8958, 0x8DA4DE7C, 0xF4760667, 0x788F72DC, 0xC6C29A40, 0x533844F1, 0x8323BE44, 0xDC621155] := by decide

/-! ### The read port (sections 2.1, 2.9) -/

/-- DIGEST is gated (rule R39), and a reserved address reads 0 (rule R57). -/
theorem test_readPort :
    readPort (finished 3) 0 = 0x6B08E647 ∧ readPort (holding 3) 0 = 0 ∧ readPort { finished 3 with busy := true } 0 = 0 ∧
      readPort (finished 3) 8 = 0x0100030A ∧ readPort (finished 3) 9 = 3 ∧ readPort (finished 3) 11 = 0 := by decide

/-- Section 2.1: the first four digest bytes of `chain[0] = 0x8C5E8C50`. -/
theorem test_digestBytes :
    (digestBytes { finished 3 with chain := Vector.replicate 8 0x8C5E8C50 }).take 4 = [0x50, 0x8C, 0x5E, 0x8C] := by decide

/-! ### Program text (rules R83, R84, R86, R87) -/

theorem test_assemble_commands :
    assembleLine "INIT                    ; restart" = some [.command .init] ∧
      assembleLine "UPDATE.3 0x00636261" = some [.command (.update 3 0x00636261)] ∧
      assembleLine "UPDATE.5 0" = none ∧ assembleLine "; nothing" = some [] := by decide

theorem test_assemble_host_actions :
    assembleLine "READ DIGEST7" = some [.read (.digest 7)] ∧ assembleLine "READ COUNTER_HI" = some [.read .counterHi] ∧
      assembleLine "WAIT" = some [.wait] ∧ assembleLine "READ DIGEST8" = none := by decide

theorem test_assemble_pseudo :
    assembleLine "UPDATE_BYTES 0x61, 0x62, 99" = some [.command (.update 3 0x00636261)] ∧
      assembleLine "UPDATE_BYTES 256" = none ∧ assembleLine "HASH_BLOCKS 1, 0" = none := by decide

/-- Rule R86 on "abcde". -/
theorem test_updateBytes :
    updateBytes [0x61, 0x62, 0x63, 0x64, 0x65] = [.update 4 0x64636261, .update 1 0x00000065] := by decide

/-- Rule R87 on the empty input. -/
theorem test_hashProgram_empty :
    hashProgram [] = .command .init :: .command .final :: .wait :: readDigest := by decide

/-! ### Witnesses of the obligations' hypotheses -/

theorem witness_DecodeOfEncodeIsTheCommand :
    (Instr.update 1 0).wellFormed = true ∧ (Instr.update 4 0x64636261).wellFormed = true ∧
      ((∃ nb x, Instr.update 4 0x64636261 = .update nb x) → (0x64636261 : Word) = (encode (.update 4 0x64636261)).2) ∧
      ((∃ nb x, Instr.nop = .update nb x) → (7 : Word) = (encode .nop).2) :=
  ⟨by decide, by decide, fun _ => by decide, by rintro ⟨_, _, h⟩; cases h⟩

theorem witness_EncodeOfDecodeIsTheWord :
    decode 0x00000302 0x64636261 = .instr (.update 4 0x64636261) ∧ decode 0x00000003 7 = .instr .final := by decide

theorem witness_LegalWordsAreThoseOfTheFormula :
    ¬((0x103 % 16 = 0 ∨ 0x103 % 16 = 1 ∨ 0x103 % 16 = 2 ∨ 0x103 % 16 = 3) ∧ 0x103 / 2 ^ 4 % 16 = 0 ∧ 0x103 / 2 ^ 10 = 0 ∧
      (0x103 % 16 = 2 ∨ 0x103 / 2 ^ 8 % 4 = 0)) := by decide

theorem witness_OpcodeMapSelectsOneRow : ∃ r ∈ opcodeMap, r.selects 0x00000302 = true := ⟨updateRow, by decide⟩

theorem witness_StepRunsTheDecodedCommand :
    let s := presenting 0x00000302 0x64636261 fresh
    rstNow s = false ∧ s.busy = false ∧ s.host.queue = .command 0x00000302 0x64636261 :: [] ∧
      decode 0x00000302 0x64636261 = .instr (.update 4 0x64636261) := by decide

theorem witness_StepRaisesIllegalCommand :
    let s := presenting 0x00000103 0 fresh
    rstNow s = false ∧ s.busy = false ∧ s.host.queue = .command 0x00000103 0 :: [] ∧ legal 0x00000103 = false := by decide

theorem witness_BusyEdgeHoldsTheCommand :
    let s := presenting 0x00000003 0 working
    rstNow s = false ∧ s.busy = true ∧ s.host.queue = .command 0x00000003 0 :: [] := by decide

theorem witness_ResetEdgeGivesTheResetState :
    rstNow { working with host := { rstWire := [true], queue := [.command 1 0] } } = true := by decide

theorem witness_UpdateThatFitsStoresItsBytes :
    (∀ n : Fin 65, n = 0 ∨ n = 60 → (holding n).fsm = .accum ∧ Memory.wf (holding n).buf = true ∧ (holding n).bufLen.val + 4 ≤ 64) ∧
      (holding 63).bufLen.val + 1 ≤ 64 := by decide

theorem witness_UpdateThatFindsTheBufferFullStartsACompression :
    (∀ n : Fin 65, n = 61 ∨ n = 64 →
      (holding n).fsm = .accum ∧ Memory.wf (holding n).buf = true ∧ 64 < (holding n).bufLen.val + 4) ∧
      64 < (holding 64).bufLen.val + 1 := by decide

theorem witness_FinalStartsTheLastCompression :
    let free := holding 3
    let empty := under true true false 1 (holding 0)
    let full := under true true true 1 (holding 64)
    (free.fsm = .accum ∧ Memory.wf free.buf = true ∧ (free.cfg.blockOnly = true → free.bufLen = 0 ∨ free.bufLen = 64)) ∧
      (empty.fsm = .accum ∧ Memory.wf empty.buf = true ∧ (empty.cfg.blockOnly = true → empty.bufLen = 0 ∨ empty.bufLen = 64)) ∧
      (full.fsm = .accum ∧ Memory.wf full.buf = true ∧ (full.cfg.blockOnly = true → full.bufLen = 0 ∨ full.bufLen = 64)) := by
  decide

theorem witness_MisuseOutsideAccum :
    (State.reset.fsm = .empty ∧ State.reset.cfg.strict = true) ∧
      ((under false false false 1 (finished 3)).fsm = .final ∧ (under false false false 1 (finished 3)).cfg.strict = false) := by
  decide

theorem witness_UnalignedFinalInBlockOnlyMode :
    ∀ strict : Bool, ∀ n : Fin 65, n = 1 ∨ n = 63 →
      let s := under strict true false 1 (holding n)
      s.fsm = .accum ∧ s.cfg.blockOnly = true ∧ s.bufLen ≠ 0 ∧ s.bufLen ≠ 64 ∧ s.cfg.strict = strict := by decide

/-- The cells of the table that have conditions. -/
theorem witness_TransitionTable :
    legal 0x00000004 = false ∧ fresh.fsm = .accum ∧
      ((under true true false 1 (holding 64)).bufLen = 64 ∧ (under true true false 1 (holding 64)).fsm = .accum) ∧
      (∀ strict : Bool, (under strict true false 1 (holding 63)).fsm = .accum ∧
        ¬((under strict true false 1 (holding 63)).cfg.blockOnly = true →
          (under strict true false 1 (holding 63)).bufLen = 0 ∨ (under strict true false 1 (holding 63)).bufLen = 64)) ∧
      (∀ strict : Bool, (under strict false false 1 State.reset).fsm ≠ .accum ∧
        (under strict false false 1 (finished 3)).fsm ≠ .accum) := by decide

theorem witness_FailedCommandChangesOnlyTheErrorFields :
    ∃ t, acceptCommand 0x00000003 0 State.reset = .next t ∧ t.errc ≠ .ok := ⟨_, rfl, by decide⟩

theorem witness_ErrorFieldsOfEveryCommand :
    (∃ t, acceptCommand 0x00000004 0 fresh = .next t ∧ t.errc ≠ .ok) ∧
      (∃ t, acceptCommand 0x00000000 0 fresh = .next t ∧ t.errc = .ok ∧ decode 0x00000000 0 ≠ .instr .init) ∧
      (∃ t, acceptCommand 0x00000001 0 fresh = .next t ∧ decode 0x00000001 0 = .instr .init) ∧
      (∃ t, step (presenting 1 0 { fresh with errs := true }) = .next t ∧
        (presenting 1 0 { fresh with errs := true }).errs = true ∧ t.errs = false) ∧
      (∃ t, step { fresh with errs := true, host := { rstWire := [true], queue := [] } } = .next t ∧
        rstNow { fresh with errs := true, host := { rstWire := [true], queue := [] } } = true) :=
  ⟨⟨_, rfl, by decide⟩, ⟨_, rfl, by decide⟩, ⟨_, rfl, by decide⟩, ⟨_, rfl, by decide⟩, ⟨_, rfl, by decide⟩⟩

theorem witness_UnusedDataBitsAreIgnored :
    ((0x00000202 : Word).toNat % 16 = 2 ∧ ∀ k : Fin 3, (0x00636261 : Word).extractLsb' (8 * k.val) 8 =
      (0xFF636261 : Word).extractLsb' (8 * k.val) 8) ∧ ¬(0x00000003 : Word).toNat % 16 = 2 := by decide

theorem witness_CounterAddCarriesOnlyWithTheParameter :
    (State.reset.cfg.counterCarry64 = false ∧ State.reset.tHi = 0 ∧ State.reset.tLo.toNat + 64 < 2 ^ 32) ∧
      (under true false true 1 State.reset).cfg.counterCarry64 = true := by decide

theorem witness_RotationMovesEveryBit : (0 < 1 ∧ 1 < 32) ∧ (0 < 31 ∧ 31 < 32) := by decide

theorem witness_LoadAfterStoreGivesTheWord :
    (0 + 4 ≤ 64 ∧ 60 + 4 ≤ 64 ∧ 60 + (store32le 0xDEADBEEF).length ≤ 64) ∧ Memory.wf (holding 64).buf = true := by decide

theorem witness_StepsOfOnePhaseCommute :
    ((0 : Fin 8) ≠ 3 ∧ (0 : Fin 8).val / 4 = (3 : Fin 8).val / 4) ∧ ((4 : Fin 8) ≠ 7 ∧ (4 : Fin 8).val / 4 = (7 : Fin 8).val / 4) := by
  decide

theorem witness_ReadPortMap : (11 ≤ (11 : BitVec 4).toNat) ∧ (11 ≤ (15 : BitVec 4).toNat) := by decide

theorem witness_DigestBytesAreLittleEndian : (finished 3).fsm = .final ∧ (finished 3).busy = false := by decide

theorem witness_OnlyCompressionsRaiseBusy :
    (∃ t, (holding 64).busy = false ∧ (Instr.update 1 0).wellFormed = true ∧ exec (.update 1 0) (holding 64) = .next t ∧
      t.busy = true) ∧
    ∃ t, (holding 60).busy = false ∧ (Instr.update 4 0).wellFormed = true ∧ exec (.update 4 0) (holding 60) = .next t ∧
      t.busy = false :=
  ⟨⟨_, by decide, by decide, rfl, by decide⟩, ⟨_, by decide, by decide, rfl, by decide⟩⟩

/-- A state of the invariant in the middle of a busy interval, for every legal COMPRESS_CYCLES and every host. -/
theorem working_inv (cycles : Nat) (host : HostPort) (h : 1 ≤ cycles) :
    ({ startCompress (under true false false cycles { holding 64 with tLo := 64 }) with bufLen := 1, host := host } : State).Inv where
  paramsValid := h
  bufWf := by change Memory.wf (holding 64).buf = true; decide
  nodeFlag := rfl
  lastFlag := by constructor <;> intro hf <;> cases hf
  errSticky := fun hne => absurd rfl hne
  emptyClean := fun hf => by cases hf
  noCarry := fun _ => rfl
  countsBlocks := fun _ => by change (64 : Word).toNat % 64 = 0; decide
  emptyBuffer := fun _ hz => absurd (show (1 : Fin 65) = 0 from hz) (by decide)
  finalCount := fun hf => by cases hf
  finalPadded := fun hf => by cases hf
  finalAligned := fun hf => by cases hf
  busyCycles := fun _ => ⟨h, Nat.le_refl _⟩
  busyShort := fun _ _ => by change 1 ≤ (1 : Fin 65).val ∧ (1 : Fin 65).val ≤ 4; decide
  busyChain := fun _ => rfl
  busyFinal := fun _ hf => by cases hf
  busyWork := fun _ => startCompress_finishWork _

theorem witness_CompressionCompletesOnTime :
    ∃ s : State, s.Inv ∧ s.busy = true ∧ s.hidden.cyc = 3 ∧ ∀ k : Nat, k < s.hidden.cyc → s.host.rstWire.getD k false = false :=
  ⟨_, working_inv 3 { rstWire := [], queue := [] } (by decide), rfl, rfl, fun _ _ => rfl⟩

theorem witness_HeldCommandIsAcceptedAfterCompletion :
    ∃ s : State, s.Inv ∧ s.busy = true ∧ s.host.rstWire = [] ∧ s.host.queue = .command 3 0 :: [] :=
  ⟨_, working_inv 1 { rstWire := [], queue := [.command 3 0] } (by decide), rfl, rfl, rfl⟩

/-- A full buffer in a state of the invariant, the host about to pass one more byte, or to issue NOP. -/
theorem full_inv (host : HostPort) : ({ holding 64 with host := host } : State).Inv where
  paramsValid := by change 1 ≤ 1; decide
  bufWf := by change Memory.wf (holding 64).buf = true; decide
  nodeFlag := rfl
  lastFlag := by constructor <;> intro hf <;> cases hf
  errSticky := fun hne => absurd rfl hne
  emptyClean := fun hf => by cases hf
  noCarry := fun _ => rfl
  countsBlocks := fun _ => by change (0 : Word).toNat % 64 = 0; decide
  emptyBuffer := fun _ _ => ⟨rfl, rfl⟩
  finalCount := fun hf => by cases hf
  finalPadded := fun hf => by cases hf
  finalAligned := fun hf => by cases hf
  busyCycles := fun hb => by cases hb
  busyShort := fun hb => by cases hb
  busyChain := fun hb => by cases hb
  busyFinal := fun hb => by cases hb
  busyWork := fun hb => by cases hb

theorem witness_CollapseAgreesWithTheEdges :
    (∃ s t : State, s.Inv ∧ s.busy = false ∧ s.host.rstWire = [] ∧ s.host.queue = .command 2 0x41 :: [] ∧
      ([] : List Presented).head? ≠ some .idle ∧ decode 2 0x41 = .instr (.update 1 0x41) ∧ exec (.update 1 0x41) s = .next t ∧
      t.busy = true) ∧
    ∃ s t : State, s.Inv ∧ s.busy = false ∧ s.host.rstWire = [] ∧ s.host.queue = .command 0 0 :: [] ∧
      ([] : List Presented).head? ≠ some .idle ∧ decode 0 0 = .instr .nop ∧ exec .nop s = .next t ∧ t.busy = false :=
  ⟨⟨_, _, full_inv { rstWire := [], queue := [.command 2 0x41] }, rfl, rfl, rfl, by decide, by decide, rfl, by decide⟩,
   ⟨_, _, full_inv { rstWire := [], queue := [.command 0 0] }, rfl, rfl, rfl, by decide, by decide, rfl, by decide⟩⟩

theorem witness_InvariantHoldsAtReset : Params.default.valid ∧ ({ Params.default with compressCycles := 80 } : Params).valid := by
  decide

theorem witness_StepKeepsInvariant :
    (∃ s t : State, s.Inv ∧ s.busy = true ∧ step s = .next t) ∧ ∃ s t : State, s.Inv ∧ step s = .next t ∧ t.busy = true :=
  ⟨⟨_, _, working_inv 2 { rstWire := [], queue := [] } (by decide), rfl, rfl⟩,
   ⟨_, _, full_inv { rstWire := [], queue := [.command 2 0x41] }, rfl, by decide⟩⟩

theorem witness_EveryStepKeepsBufferCanonical :
    ∃ t, Memory.wf (presenting 3 0 (holding 3)).buf = true ∧ step (presenting 3 0 (holding 3)) = .next t :=
  ⟨_, by decide, rfl⟩

theorem witness_NoStepChangesAParameter : ∃ t, step (presenting 1 0 State.reset) = .next t := ⟨_, rfl⟩

/-- The fault clauses of the statement are met, each by a state. -/
theorem witness_StepFaultsOnlyOnUncheckedMisuse :
    step (presenting 2 0x41 (under false false false 1 State.reset)) = .fault .updateOutsideAccum ∧
      step (presenting 3 0 (under false false false 1 (finished 3))) = .fault .finalOutsideAccum ∧
      step (presenting 3 0 (under false true false 1 (holding 3))) = .fault .unalignedLength ∧
      (presenting 3 0 State.reset).cfg.strict = true := ⟨rfl, rfl, rfl, rfl⟩

theorem witness_OnlyInitAndCompletionWriteChain :
    (∃ t, step (presenting 1 0 State.reset) = .next t ∧ t.chain ≠ State.reset.chain) ∧
      (∃ t, step { fresh with host := { rstWire := [true], queue := [] } } = .next t ∧ t.chain ≠ fresh.chain) :=
  ⟨⟨_, rfl, by decide⟩, ⟨_, rfl, by decide⟩⟩

theorem witness_OnlyTheseChangeTheCounter :
    (∃ t, step (presenting 2 0x41 (holding 64)) = .next t ∧ ¬(t.tLo = 0 ∧ t.tHi = 0)) ∧
      (∃ t, step (presenting 3 0 (holding 3)) = .next t ∧ ¬(t.tLo = 0 ∧ t.tHi = 0)) :=
  ⟨⟨_, rfl, by decide⟩, ⟨_, rfl, by decide⟩⟩

theorem witness_LastBlockFlagIsSetByFinalAlone :
    (∃ t, step (presenting 3 0 (holding 3)) = .next t ∧ (holding 3).f0 = false ∧ t.f0 = true) ∧
      (∃ t, step (presenting 1 0 (finished 3)) = .next t ∧ (finished 3).f0 = true ∧ t.f0 = false) :=
  ⟨⟨_, rfl, by decide⟩, ⟨_, rfl, by decide⟩⟩

/-- Each clause: FINAL left by INIT, EMPTY left by INIT, and a NOP after FINAL. -/
theorem witness_OnlyInitAndResetLeaveFinal :
    (∃ t, step (presenting 1 0 (finished 3)) = .next t ∧ (finished 3).fsm = .final ∧ t.fsm ≠ .final) ∧
      (∃ t, step (presenting 1 0 State.reset) = .next t ∧ State.reset.fsm = .empty ∧ t.fsm ≠ .empty) ∧
      (∃ t, step (presenting 0 0 (finished 3)) = .next t ∧ (finished 3).fsm = .final ∧ (finished 3).busy = false ∧
        rstNow (presenting 0 0 (finished 3)) = false ∧ ¬Accepts (presenting 0 0 (finished 3)) .init) := by
  refine ⟨⟨_, rfl, by decide⟩, ⟨_, rfl, by decide⟩, ⟨_, rfl, by decide, by decide, by decide, ?_⟩⟩
  rintro ⟨w, d, hw, hd⟩
  cases hw
  cases hd

/-- Two states that differ in a stale byte, in a hidden field and in the free values to come. -/
theorem witness_HiddenFieldsAndStaleBytesAreUnobservable :
    ∃ t : State, (holding 3).SameVisible t ∧ Memory.wf (holding 3).buf = true ∧ Memory.wf t.buf = true ∧ t ≠ holding 3 :=
  ⟨{ holding 3 with buf := (holding 3).buf ++ [(9, 0x77)], freeCount := 5, hidden := { Hidden.reset with cyc := 9 } },
    ⟨rfl, rfl, rfl, rfl, rfl, rfl, rfl, rfl, rfl, rfl, rfl, rfl, by decide, (fun hb => by cases hb), (fun hb => by cases hb)⟩,
    by decide, by decide, by decide⟩

theorem witness_ChunkingDoesNotMatter :
    let whole : List Instr := [.update 3 0x00636261]
    let split : List Instr := [.update 1 0x61, .nop, .update 2 0xFFFF6362]
    (holding 63).fsm = .accum ∧ Memory.wf (holding 63).buf = true ∧ (holding 63).busy = false ∧
      (∀ i ∈ whole, Instr.isFeed i = true) ∧ (∀ i ∈ split, Instr.isFeed i = true) ∧ passedBytes whole = passedBytes split := by
  decide

theorem witness_StreamLeavesItsLastBlockInTheBuffer :
    State.reset.busy = false ∧ (∀ i ∈ [Instr.update 3 0x00636261, .nop], Instr.isFeed i = true) ∧
      passedBytes [Instr.update 3 0x00636261, .nop] ≠ [] := by decide

theorem witness_FinalLeavesTheHashOfTheStream :
    (State.reset.busy = false ∧ (∀ i ∈ [Instr.update 3 0x00636261], Instr.isFeed i = true) ∧
      (State.reset.cfg.blockOnly = true → (passedBytes [Instr.update 3 0x00636261]).length % 64 = 0)) ∧
    ((under true true false 1 State.reset).cfg.blockOnly = true ∧
      (∀ i ∈ List.replicate 16 (Instr.update 4 0), Instr.isFeed i = true) ∧
      (passedBytes (List.replicate 16 (Instr.update 4 0))).length % 64 = 0) := by decide

theorem witness_BlockOnlyCheckIsExactForTheTotal :
    ∃ t, (under true true false 1 State.reset).busy = false ∧ (∀ i ∈ [Instr.update 3 0x00636261], Instr.isFeed i = true) ∧
      execAll [.init, .update 3 0x00636261] (under true true false 1 State.reset) = .next t ∧
      (under true true false 1 State.reset).cfg.blockOnly = true := ⟨_, by decide, by decide, rfl, by decide⟩

theorem witness_ByteSerialAppendMatchesTheSourceUpdate :
    (holding 64).fsm = .accum ∧ (holding 64).busy = false ∧ Memory.wf (holding 64).buf = true := by decide

theorem witness_HashProgramReadsTheHash :
    (∃ s : State, s.Inv ∧ s.busy = true ∧ (s.cfg.blockOnly = true → [(0x61 : Byte)].length % 64 = 0)) ∧
      ∃ s : State, s.Inv ∧ s.busy = false ∧ (s.cfg.blockOnly = true → ([] : List Byte).length % 64 = 0) :=
  ⟨⟨_, working_inv 3 { rstWire := [], queue := [] } (by decide), rfl, fun hb => by cases hb⟩,
   ⟨_, full_inv { rstWire := [], queue := [] }, rfl, fun _ => rfl⟩⟩

end Sys2Proof.Tests
end

section
/-! Proofs for spec/00_scope.md: the parameters of rule R7. No step changes one (rule R36, rule R231), and the value of
`COMPRESS_CYCLES` reaches no result (rule R245). -/

namespace Sys2Proof.Machine

/-! ### No step changes a parameter -/

theorem busyEdge_cfg (s : State) : (busyEdge s).cfg = s.cfg := by
  rcases busyEdge_cases s with ⟨-, he⟩ | ⟨-, he⟩ <;> rw [he]
  · exact completeCompress_cfg s
  · exact progressCompress_cfg s

/-- No command writes a parameter (rule R36). -/
theorem exec_cfg {i : Instr} {s t : State} (h : exec i s = .next t) : t.cfg = s.cfg := by
  rcases exec_cases i s t h with
    ⟨-, rfl⟩ | ⟨-, hInit⟩ | ⟨nb, data, -, -, rfl⟩ | ⟨-, -, -, rfl⟩ | ⟨-, code, -, rfl, -⟩
  · exact succeed_cfg s
  · cases hInit; rfl
  · exact (appendBytes_same (dataBytes nb data) s).cfg
  · exact finalBlock_cfg s
  · exact raiseError_cfg code s

/-- Settles O43: reset keeps `cfg`, a busy or an idle edge does not write it, and neither does a command or an illegal word. -/
theorem noStepChangesAParameter : Obligations.NoStepChangesAParameter := by
  unfold Obligations.NoStepChangesAParameter
  intro s t h
  rcases step_cases s t h with
    ⟨-, rfl⟩ | ⟨-, rfl⟩ | ⟨-, rfl⟩ | ⟨w, d, i, -, -, hExec⟩ | ⟨w, d, why, -, -, rfl⟩
  · rfl
  · exact busyEdge_cfg (clockHost false s)
  · rfl
  · exact (exec_cfg hExec).trans (State.setHost_cfg s _)
  · rfl

/-! ### No result depends on COMPRESS_CYCLES

The parameter is read in one place: `startCompress` copies it to the hidden `cyc`. While that compression runs, two states that
differ in the parameter also differ in `cyc`; completion discards `cyc`, and no result was computed from it. -/

/-- The same state with another value of the parameter `COMPRESS_CYCLES` (rule R7). -/
def State.withCycles (c : Nat) (s : State) : State := { s with cfg := { s.cfg with compressCycles := c } }

/-- `t` is `s` with `c` for the parameter and, if a compression runs, any count of the cycles that remain of it. -/
def CyclesApart (c : Nat) (s t : State) : Prop :=
  ∃ n, t = (s.withCycles c).setHidden { s.hidden with cyc := n } ∧ (s.busy = true ∨ n = s.hidden.cyc)

theorem cyclesApart_withCycles (c : Nat) (s : State) : CyclesApart c s (s.withCycles c) :=
  ⟨s.hidden.cyc, rfl, .inr rfl⟩

theorem CyclesApart.bufLen {c : Nat} {s t : State} (h : CyclesApart c s t) : t.bufLen = s.bufLen := by
  obtain ⟨n, rfl, -⟩ := h
  rfl

/-- Each starts its compression with its own parameter, and neither looks at the count it held before. -/
theorem CyclesApart.flushFull {c : Nat} {s t : State} (h : CyclesApart c s t) :
    CyclesApart c (flushFull s) (flushFull t) := by
  by_cases hFull : s.bufLen = 64
  · rw [flushFull_full s hFull, flushFull_full t (h.bufLen.trans hFull)]
    obtain ⟨n, rfl, -⟩ := h
    exact ⟨c, rfl, .inl rfl⟩
  · rw [flushFull_notFull s hFull, flushFull_notFull t (h.bufLen ▸ hFull)]
    exact h

theorem CyclesApart.storeByte {c : Nat} {s t : State} (b : Byte) (h : CyclesApart c s t) :
    CyclesApart c (storeByte b s) (storeByte b t) := by
  obtain ⟨n, rfl, hn⟩ := h
  exact ⟨n, rfl, hn⟩

theorem CyclesApart.appendBytes {c : Nat} (bytes : List Byte) {s t : State} (h : CyclesApart c s t) :
    CyclesApart c (appendBytes bytes s) (appendBytes bytes t) := by
  induction bytes generalizing s t with
  | nil => exact h
  | cons b bytes ih => exact ih (h.flushFull.storeByte b)

theorem CyclesApart.succeed {c : Nat} {s t : State} (h : CyclesApart c s t) : CyclesApart c (succeed s) (succeed t) := by
  obtain ⟨n, rfl, hn⟩ := h
  exact ⟨n, rfl, hn⟩

/-- Completion frees the hidden fields, and the chaining value it writes does not depend on the count: only the parameter
still differs (rule R245). -/
theorem CyclesApart.collapse {c : Nat} {s t : State} (h : CyclesApart c s t) :
    collapse t = (collapse s).withCycles c := by
  obtain ⟨n, rfl, hn⟩ := h
  cases hb : s.busy with
  | true =>
    have hFinish := Hidden.finishWork_setCyc s.hidden n
    simp only [Machine.collapse, State.setHidden, State.withCycles, hb, if_true, completeCompress, State.setChain, hFinish]
    rfl
  | false =>
    obtain rfl : n = s.hidden.cyc := hn.resolve_left (by simp [hb])
    simp [Machine.collapse, State.setHidden, State.withCycles, hb]

theorem CyclesApart.collapseOutcome {c : Nat} {s t : State} (h : CyclesApart c s t) :
    collapseOutcome (.next t) = mapNext (State.withCycles c) (collapseOutcome (.next s)) :=
  congrArg Host.Outcome.next h.collapse

/-- A misuse raises its error or faults by `STRICT`, which the two states share (rule R205). -/
theorem collapseOutcome_misuse_withCycles (code : ErrCode) (reason : Fault) (c : Nat) (s : State) :
    collapseOutcome (misuse code reason (s.withCycles c)) =
      mapNext (State.withCycles c) (collapseOutcome (misuse code reason s)) := by
  rcases misuse_cases code reason s with ⟨hs, he⟩ | ⟨hs, he⟩
  · rw [he, misuse, if_pos (show (s.withCycles c).cfg.strict = true from hs)]
    exact CyclesApart.collapseOutcome ⟨s.hidden.cyc, rfl, .inr rfl⟩
  · rw [he, misuse, if_neg (by simpa [State.withCycles] using hs)]
    rfl

/-- A command with its busy interval collapsed does the same whatever the parameter is. -/
theorem execCollapsed_withCycles (i : Instr) (c : Nat) (s : State) :
    execCollapsed i (s.withCycles c) = mapNext (State.withCycles c) (execCollapsed i s) := by
  cases i with
  | nop => exact (cyclesApart_withCycles c s).succeed.collapseOutcome
  | init => exact CyclesApart.collapseOutcome ⟨s.hidden.cyc, rfl, .inr rfl⟩
  | update nb data =>
    change collapseOutcome (execUpdate nb data (s.withCycles c)) = mapNext _ (collapseOutcome (execUpdate nb data s))
    have hFsm : (s.withCycles c).fsm = s.fsm := rfl
    unfold execUpdate
    rw [hFsm]
    split
    · exact collapseOutcome_misuse_withCycles .misusedState .updateOutsideAccum c s
    · exact ((cyclesApart_withCycles c s).appendBytes (dataBytes nb data)).succeed.collapseOutcome
  | final =>
    change collapseOutcome (execFinal (s.withCycles c)) = mapNext _ (collapseOutcome (execFinal s))
    have hFsm : (s.withCycles c).fsm = s.fsm := rfl
    have hUnaligned : unaligned (s.withCycles c) = unaligned s := rfl
    unfold execFinal
    rw [hFsm, hUnaligned]
    split
    · exact collapseOutcome_misuse_withCycles .misusedState .finalOutsideAccum c s
    · split
      · exact collapseOutcome_misuse_withCycles .invalidArgument .unalignedLength c s
      · exact CyclesApart.collapseOutcome ⟨c, rfl, .inl rfl⟩

theorem execAll_withCycles (cmds : List Instr) (c : Nat) (s : State) :
    execAll cmds (s.withCycles c) = mapNext (State.withCycles c) (execAll cmds s) := by
  induction cmds generalizing s with
  | nil => rfl
  | cons i rest ih =>
    rw [execAll, execAll, execCollapsed_withCycles]
    cases execCollapsed i s with
    | next t => exact ih t
    | fault reason => rfl
    | refused reason => rfl

/-- Settles O39, by induction on the commands: each commutes with the change of the parameter. -/
theorem cyclesDoNotChangeResults : Obligations.CyclesDoNotChangeResults := by
  unfold Obligations.CyclesDoNotChangeResults
  exact fun cmds s c => execAll_withCycles cmds c s

end Sys2Proof.Machine
end

section
/-! Proofs for spec/10_state.md, first part: what one edge can do, said once with the accepted command named, and the values of
the counter, the buffer and STATUS that the statements about the fields of R20 speak of. -/

namespace Sys2Proof.Machine

/-! ### The host's side of an edge -/

/-- An edge touches nothing but the host's side before its own effect (log 8). -/
@[simp] theorem clockHost_eq (accepted : Bool) (s : State) :
    clockHost accepted s = s.setHost (s.host.afterEdge accepted) := rfl

/-- A command that is not accepted stays presented (rule R240 item 1). -/
theorem afterEdge_held {h : HostPort} {w data : Word} {rest : List Presented} (hq : h.queue = .command w data :: rest) :
    h.afterEdge false = { rstWire := h.rstWire.tail, queue := .command w data :: rest } := by
  simp [HostPort.afterEdge, hq]

/-! ### Everything an edge can do -/

/-- What INIT leaves (rule R164). -/
def initialized (s : State) : State :=
  { s with
    chain := initChain, tLo := 0, tHi := 0, f0 := false, f1 := false, buf := [], bufLen := 0, fsm := .accum, errc := .ok
    errs := false }

theorem execInit_eq (s : State) : execInit s = .next (initialized s) := rfl

/-- The states that one edge can lead to, by what the edge is and which command it accepts. The statements about who writes a
field are case analyses of this predicate. -/
inductive EdgeLeadsTo (s : State) : State → Prop
  | reset (hRst : rstNow s = true) : EdgeLeadsTo s (resetEdge s)
  | complete (hRst : rstNow s = false) (hBusy : s.busy = true) (hCyc : s.hidden.cyc ≤ 1) :
      EdgeLeadsTo s (completeCompress (clockHost false s))
  | progress (hRst : rstNow s = false) (hBusy : s.busy = true) (hCyc : 1 < s.hidden.cyc) :
      EdgeLeadsTo s (progressCompress (clockHost false s))
  | idle : EdgeLeadsTo s (clockHost false s)
  | nop : EdgeLeadsTo s (succeed (clockHost true s))
  | init (hAcc : Accepts s .init) (hBusy : s.busy = false) : EdgeLeadsTo s (initialized (clockHost true s))
  | update (nb : Nat) (data : Word) (hAcc : Accepts s (.update nb data)) (hBusy : s.busy = false) (hFsm : s.fsm = .accum)
      (hPos : 1 ≤ nb) (hLe : nb ≤ 4) : EdgeLeadsTo s (succeed (appendBytes (dataBytes nb data) (clockHost true s)))
  | final (hAcc : Accepts s .final) (hBusy : s.busy = false) (hFsm : s.fsm = .accum) (hAligned : unaligned s = false) :
      EdgeLeadsTo s (succeed ((finalBlock (clockHost true s)).setFsm .final))
  | error (code : ErrCode) (hCode : code ≠ .ok) : EdgeLeadsTo s (raiseError code (clockHost true s))

theorem wellFormed_update_iff (nb : Nat) (data : Word) : (Instr.update nb data).wellFormed = true ↔ 1 ≤ nb ∧ nb ≤ 4 := by
  simp [Instr.wellFormed]

/-- What ties the predicate to the machine: a step that goes on leads to one of these states. -/
theorem edgeLeadsTo_of_step {s t : State} (h : step s = .next t) : EdgeLeadsTo s t := by
  rcases step_cases s t h with
    ⟨hEv, rfl⟩ | ⟨hEv, rfl⟩ | ⟨-, rfl⟩ | ⟨w, d, i, hEv, hDec, hExec⟩ | ⟨w, d, why, -, -, rfl⟩
  · exact .reset ((edgeEvent_reset_iff s).mp hEv)
  · obtain ⟨hRst, hBusy⟩ := (edgeEvent_busy_iff s).mp hEv
    rcases busyEdge_cases (clockHost false s) with ⟨hCyc, hEdge⟩ | ⟨hCyc, hEdge⟩ <;> rw [hEdge]
    · exact .complete hRst hBusy hCyc
    · exact .progress hRst hBusy hCyc
  · exact .idle
  · obtain ⟨-, hBusy, -⟩ := (edgeEvent_accept_iff s w d).mp hEv
    rcases exec_cases i _ t hExec with
      ⟨rfl, rfl⟩ | ⟨rfl, hInit⟩ | ⟨nb, data, rfl, hFsm, rfl⟩ | ⟨rfl, hFsm, hAligned, rfl⟩ | ⟨-, code, hCode, rfl, -⟩
    · exact .nop
    · cases hInit
      exact .init ⟨w, d, hEv, hDec⟩ hBusy
    · obtain ⟨hPos, hLe⟩ := (wellFormed_update_iff nb data).mp (decode_wellFormed w d _ hDec)
      exact .update nb data ⟨w, d, hEv, hDec⟩ hBusy hFsm hPos hLe
    · exact .final ⟨w, d, hEv, hDec⟩ hBusy hFsm hAligned
    · exact .error code hCode
  · exact .error .illegalCommand (by decide)

/-! ### The counter -/

/-- The high half that `CounterAdd(n)` leaves (rule R25). -/
theorem counterNext_hi (n : Nat) (s : State) :
    (counterNext n s).2 =
      if s.cfg.counterCarry64 = true then BitVec.ofNat 32 ((s.tHi.toNat * 2 ^ 32 + s.tLo.toNat + n) / 2 ^ 32) else s.tHi := by
  unfold counterNext
  split
  · apply BitVec.eq_of_toNat_eq
    simp only [counter, BitVec.toNat_ofNat]
    omega
  · rfl

theorem counterNext_lo (n : Nat) (s : State) : (counterNext n s).1 = s.tLo + BitVec.ofNat 32 n := counterAdd_tLo n s

/-! ### The buffer -/

/-- The length check of block-only mode, as what FINAL asks for (rule R176). -/
theorem unaligned_eq_false_iff (s : State) :
    unaligned s = false ↔ (s.cfg.blockOnly = true → s.bufLen = 0 ∨ s.bufLen = 64) := by
  rw [← Bool.not_eq_true, unaligned_iff]
  tauto

/-- Byte `k` of an UPDATE's bytes (rule R76). -/
theorem dataBytes_getD {nb k : Nat} (data : Word) (h : k < nb) : (dataBytes nb data).getD k 0 = data.extractLsb' (8 * k) 8 := by
  simp [dataBytes, dataByte, h]

theorem filled_wf (bytes : List Byte) (s : State) (h : Memory.wf s.buf = true) : Memory.wf (filled bytes s).buf = true :=
  appendBytes_wf _ s h

/-- The whole next state of bytes that do not fit: the compression of the filled buffer starts, and the bytes after the trigger
are stored from address 0 (rule R171). -/
theorem appendBytes_trigger_eq (bytes : List Byte) (s : State) (h64 : bytes.length ≤ 64)
    (h : 64 < s.bufLen.val + bytes.length) :
    ∃ hRest, appendBytes bytes s =
      { s with
        tLo := s.tLo + 64, tHi := (counterNext 64 s).2
        buf := Memory.writeBytes (filled bytes s).buf 0 (bytes.drop (64 - s.bufLen.val)) hRest
        bufLen := Fin.ofNat 65 (s.bufLen.val + bytes.length - 64), busy := true
        hidden :=
          { hIn := s.chain, m := loadMessage (filled bytes s).buf
            v := initWork s.chain (s.tLo + 64) (counterNext 64 s).2 s.f0 s.f1, rnd := 0, stp := 0
            cyc := s.cfg.compressCycles } } := by
  have hLt := s.bufLen.isLt
  have hTake : s.bufLen.val + (bytes.take (64 - s.bufLen.val)).length ≤ 64 := by simp; omega
  have hRest : 0 + (bytes.drop (64 - s.bufLen.val)).length ≤ 64 := by simp; omega
  refine ⟨hRest, ?_⟩
  have hLen : (⟨0 + (bytes.drop (64 - s.bufLen.val)).length, by omega⟩ : Fin 65) =
      Fin.ofNat 65 (s.bufLen.val + bytes.length - 64) := by
    ext
    simp only [List.length_drop, Fin.ofNat]
    omega
  obtain ⟨hNext, hLo⟩ : counterNext 64 (filled bytes s) = counterNext 64 s ∧ (filled bytes s).tLo = s.tLo := by
    rw [filled, appendBytes_fit _ _ hTake]
    exact ⟨rfl, rfl⟩
  obtain ⟨hCfg, hFsm, hChain, hF0, hF1, hErrc, hErrs, hHost, hFree⟩ : SameButBuffer s (filled bytes s) := appendBytes_same _ s
  rw [appendBytes_trigger bytes s h, appendBytes_fit _ _ hRest]
  apply State.ext
  case bufLen => exact hLen
  all_goals simp [hNext, hLo, hCfg, hFsm, hChain, hF0, hF1, hErrc, hErrs, hHost, hFree]

end Sys2Proof.Machine
end

section
/-! Proofs for spec/10_state.md, second part: the invariant, which reset establishes and every edge keeps. -/

namespace Sys2Proof.Machine

/-! ### Operations that write no field the invariant relates to another -/

/-- The invariant says nothing about the host's side. -/
theorem State.Inv.setHost {s : State} (hs : s.Inv) (h : HostPort) : (s.setHost h).Inv := { hs with }

theorem State.Inv.setResult {s : State} (hs : s.Inv) (code : ErrCode) (sticky : Bool) (h : code ≠ .ok → sticky = true) :
    (s.setResult code sticky).Inv := { hs with errSticky := h }

theorem State.Inv.succeed {s : State} (hs : s.Inv) : (succeed s).Inv := hs.setResult .ok s.errs (absurd rfl)

theorem State.Inv.raiseError {s : State} (hs : s.Inv) (code : ErrCode) : (raiseError code s).Inv :=
  hs.setResult code true fun _ => rfl

/-! ### Reset and INIT -/

/-- Reset leaves the invariant, whatever the parameters are (rule R40). -/
theorem resetWith_inv (p : Params) (host : HostPort) (n : Nat) (hp : p.valid) : (State.resetWith p host n).Inv where
  paramsValid := hp
  bufWf := rfl
  nodeFlag := rfl
  lastFlag := by simp [State.resetWith]
  errSticky := absurd rfl
  emptyClean := fun _ => ⟨rfl, rfl, rfl, rfl, rfl, rfl⟩
  noCarry := fun _ => rfl
  countsBlocks := nofun
  emptyBuffer := nofun
  finalCount := nofun
  finalPadded := nofun
  finalAligned := nofun
  busyCycles := nofun
  busyShort := nofun
  busyChain := nofun
  busyFinal := nofun
  busyWork := nofun

/-- INIT leaves the invariant from any state that is not busy (rule R164). -/
theorem initialized_inv {s : State} (hp : s.cfg.valid) (hb : s.busy = false) : (initialized s).Inv where
  paramsValid := hp
  bufWf := rfl
  nodeFlag := rfl
  lastFlag := by simp [initialized]
  errSticky := absurd rfl
  emptyClean := nofun
  noCarry := fun _ => rfl
  countsBlocks := fun _ => rfl
  emptyBuffer := fun _ _ => ⟨rfl, rfl⟩
  finalCount := nofun
  finalPadded := nofun
  finalAligned := nofun
  busyCycles := by simp [initialized, hb]
  busyShort := by simp [initialized, hb]
  busyChain := by simp [initialized, hb]
  busyFinal := by simp [initialized, hb]
  busyWork := by simp [initialized, hb]

/-! ### The busy edges -/

/-- The completion edge writes `chain`, which only the busy relations and EMPTY speak of, and ends the busy interval. -/
theorem completeCompress_inv {s : State} (hs : s.Inv) (hb : s.busy = true) : (completeCompress s).Inv :=
  { hs with
    emptyClean := fun hf => absurd hb (by simp [(hs.emptyClean hf).2.2.2.2.2])
    busyCycles := nofun
    busyShort := nofun
    busyChain := nofun
    busyFinal := nofun
    busyWork := nofun }

/-- Progress leaves what the schedule leads to, and at least one cycle (rule R245). -/
theorem progressCompress_inv {s : State} (hs : s.Inv) (hCyc : 1 < s.hidden.cyc) : (progressCompress s).Inv :=
  { hs with
    busyCycles := fun hb => by
      have := (hs.busyCycles hb).2
      simp only [progressCompress_hidden, progressCompress_cfg]
      omega
    busyChain := fun hb => by simpa using hs.busyChain hb
    busyFinal := fun hb hf => by simpa using hs.busyFinal hb hf
    busyWork := fun hb => by
      rw [progressCompress_finishWork]
      simpa using hs.busyWork hb }

/-! ### UPDATE and FINAL in ACCUM -/

/-- Bytes that fit keep the invariant: only the buffer and its length grow (rule R172). -/
theorem appendBytes_inv_of_fit {s : State} (hs : s.Inv) (hFsm : s.fsm = .accum) (hb : s.busy = false) {bytes : List Byte}
    (hPos : 1 ≤ bytes.length) (hFit : s.bufLen.val + bytes.length ≤ 64) : (appendBytes bytes s).Inv := by
  rw [appendBytes_fit bytes s hFit]
  exact { hs with
    bufWf := Memory.wf_writeBytes _ _ _ _ hs.bufWf
    emptyClean := by simp [hFsm]
    emptyBuffer := fun _ hz => by
      have hSum : s.bufLen.val + bytes.length = 0 := congrArg Fin.val hz
      omega
    finalCount := by simp [hFsm]
    finalPadded := by simp [hFsm]
    finalAligned := by simp [hFsm]
    busyShort := by simp [hb]
    busyFinal := by simp [hFsm] }

/-- Bytes that do not fit keep the invariant: a whole block is counted, one to four bytes are left in the buffer, and the
compression of the block starts from its first step (rule R171). -/
theorem appendBytes_inv_of_trigger {s : State} (hs : s.Inv) (hFsm : s.fsm = .accum) {bytes : List Byte}
    (hLe : bytes.length ≤ 4) (hFull : 64 < s.bufLen.val + bytes.length) : (appendBytes bytes s).Inv := by
  have hLt := s.bufLen.isLt
  have hWf := appendBytes_wf bytes s hs.bufWf
  obtain ⟨hRest, hEq⟩ := appendBytes_trigger_eq bytes s (by omega) hFull
  rw [hEq] at hWf ⊢
  have hLen : (Fin.ofNat 65 (s.bufLen.val + bytes.length - 64)).val = s.bufLen.val + bytes.length - 64 :=
    Nat.mod_eq_of_lt (by omega)
  exact { hs with
    bufWf := hWf
    emptyClean := by simp [hFsm]
    noCarry := fun hc => (counterNext_noCarry 64 s hc).trans (hs.noCarry hc)
    countsBlocks := fun _ => by
      have := hs.countsBlocks hFsm
      simp
      omega
    emptyBuffer := fun _ hz => by
      have hZero : s.bufLen.val + bytes.length - 64 = 0 := hLen.symm.trans (congrArg Fin.val hz)
      omega
    finalCount := by simp [hFsm]
    finalPadded := by simp [hFsm]
    finalAligned := by simp [hFsm]
    busyCycles := fun _ => ⟨hs.paramsValid, Nat.le_refl _⟩
    busyShort := fun _ _ => by
      rw [hLen]
      omega
    busyChain := fun _ => rfl
    busyFinal := by simp [hFsm]
    busyWork := fun _ => Hidden.finishWork_start _ rfl rfl }

/-- The final block keeps the invariant: in ACCUM whole blocks were counted, and `buf_len` is added (rule R177). -/
theorem finalBlock_inv {s : State} (hs : s.Inv) (hFsm : s.fsm = .accum) (ha : unaligned s = false) :
    ((finalBlock s).setFsm .final).Inv where
  paramsValid := hs.paramsValid
  bufWf := padBuffer_wf s hs.bufWf
  nodeFlag := rfl
  lastFlag := by simp
  errSticky := hs.errSticky
  emptyClean := nofun
  noCarry := fun hc => (counterNext_noCarry _ s hc).trans (hs.noCarry hc)
  countsBlocks := nofun
  emptyBuffer := nofun
  finalCount := fun _ => by
    have := hs.countsBlocks hFsm
    simp
    omega
  finalPadded := fun _ a hle => by
    simp [padBuffer_read s hs.bufWf a, show s.bufLen.val ≤ a.val from hle]
  finalAligned := fun _ => (unaligned_eq_false_iff s).mp ha
  busyCycles := fun _ => ⟨hs.paramsValid, Nat.le_refl _⟩
  busyShort := nofun
  busyChain := fun _ => rfl
  busyFinal := fun _ _ => rfl
  busyWork := fun _ => finalBlock_finishWork s

/-! ### The invariant of the machine -/

/-- Settles O40: the reset values meet every relation. -/
theorem invariantHoldsAtReset : Obligations.InvariantHoldsAtReset := by
  unfold Obligations.InvariantHoldsAtReset
  exact resetWith_inv

/-- Settles O41, by what the edge is: each operation of the CORE keeps the invariant. -/
theorem stepKeepsInvariant : Obligations.StepKeepsInvariant := by
  unfold Obligations.StepKeepsInvariant
  intro s t hs hStep
  have hClock (accepted : Bool) : (clockHost accepted s).Inv := hs.setHost _
  cases edgeLeadsTo_of_step hStep with
  | reset => exact resetWith_inv s.cfg _ _ hs.paramsValid
  | complete _ hBusy => exact completeCompress_inv (hClock false) hBusy
  | progress _ _ hCyc => exact progressCompress_inv (hClock false) hCyc
  | idle => exact hClock false
  | nop => exact (hClock true).succeed
  | init _ hBusy => exact initialized_inv (hClock true).paramsValid hBusy
  | update nb data _ hBusy hFsm hPos hLe =>
    have hLen := dataBytes_length nb data
    rcases Nat.lt_or_ge 64 (s.bufLen.val + (dataBytes nb data).length) with hFull | hFit
    · exact (appendBytes_inv_of_trigger (hClock true) hFsm (by omega) hFull).succeed
    · exact (appendBytes_inv_of_fit (hClock true) hFsm hBusy (by omega) hFit).succeed
  | final _ _ hFsm hAligned => exact (finalBlock_inv (hClock true) hFsm hAligned).succeed
  | error code => exact (hClock true).raiseError code

end Sys2Proof.Machine
end

section
/-! Proofs for spec/10_state.md, third part: the busy and the reset edge, CounterAdd, the exact next states of the commands that
start a compression, and who writes `errs`, `busy`, `chain`, the counter, `f0` and `fsm`. -/

namespace Sys2Proof.Machine

/-! ### The busy edge and the reset edge -/

/-- Settles O9: both busy edges write only `chain`, `busy` and the hidden fields, and the host keeps its command. -/
theorem busyEdgeHoldsTheCommand : Obligations.BusyEdgeHoldsTheCommand := by
  unfold Obligations.BusyEdgeHoldsTheCommand
  intro s w data rest hRst hBusy hQueue
  have hStep : step s = .next (busyEdge (clockHost false s)) := by
    rw [step, (edgeEvent_busy_iff s).mpr ⟨hRst, hBusy⟩]
  refine ⟨_, hStep, ?_⟩
  rcases busyEdge_cases (clockHost false s) with ⟨-, hEdge⟩ | ⟨-, hEdge⟩ <;> rw [hEdge] <;> simp [afterEdge_held hQueue]

/-- Settles O10: the edge is `resetEdge`, whatever the CORE was doing. -/
theorem resetEdgeGivesTheResetState : Obligations.ResetEdgeGivesTheResetState := by
  unfold Obligations.ResetEdgeGivesTheResetState
  intro s hRst
  have hStep : step s = .next (resetEdge s) := by rw [step, (edgeEvent_reset_iff s).mpr hRst]
  have hHeld : ∀ w data rest, s.host.queue = .command w data :: rest → (resetEdge s).host.queue = s.host.queue := by
    intro w data rest hQueue
    change (s.host.afterEdge false).queue = s.host.queue
    rw [afterEdge_held hQueue, hQueue]
  exact ⟨_, hStep, rfl, fun k => Vector.getElem_replicate _, rfl, rfl, rfl, rfl, fun _ => rfl, rfl, rfl, rfl, rfl, rfl, rfl, hHeld⟩

/-! ### CounterAdd -/

/-- Settles O23: the halves are those of the sum, by the parameter; without a carry out of the low half both settings agree. -/
theorem counterAddCarriesOnlyWithTheParameter : Obligations.CounterAddCarriesOnlyWithTheParameter := by
  unfold Obligations.CounterAddCarriesOnlyWithTheParameter
  intro s n hn
  have hLo : (counterNext n s).1.toNat = (s.tLo.toNat + n) % 2 ^ 32 := by
    rw [counterNext_lo, BitVec.toNat_add, BitVec.toNat_ofNat]
    omega
  refine ⟨(counterNext n s).1, (counterNext n s).2, rfl, fun hCarry => ?_, fun hNone => ?_, fun hHi hSmall => ?_⟩
  · exact counter_counterAdd_carry n s hCarry
  · exact ⟨hLo, counterNext_noCarry n s hNone⟩
  · exact ⟨by omega, counterNext_small n s hHi hSmall⟩

/-! ### The commands that start a compression -/

theorem exec_update_of_accum {s : State} (nb : Nat) (data : Word) (hFsm : s.fsm = .accum) :
    exec (.update nb data) s = .next (succeed (appendBytes (dataBytes nb data) s)) :=
  if_neg (not_not.mpr hFsm)

theorem exec_final_of_accum {s : State} (hFsm : s.fsm = .accum) (hAligned : unaligned s = false) :
    exec .final s = .next (succeed ((finalBlock s).setFsm .final)) := by
  change execFinal s = _
  rw [execFinal, if_neg (not_not.mpr hFsm), if_neg (Bool.eq_false_iff.mp hAligned)]

/-- What the final compression latches: the padded block and the working vector with the last-block flag (rule R177). -/
theorem finalBlock_hidden (s : State) :
    (finalBlock s).hidden =
      { hIn := s.chain, m := loadMessage (padBuffer s).buf
        v := initWork s.chain (finalBlock s).tLo (finalBlock s).tHi true false, rnd := 0, stp := 0
        cyc := s.cfg.compressCycles } := rfl

/-- What the buffer reads as after a block trigger: the bytes from the trigger on, over the filled buffer (rule R171). -/
theorem read_writeBytes_drop_filled {s : State} {bytes : List Byte} (hWf : Memory.wf s.buf = true)
    (hFull : 64 < s.bufLen.val + bytes.length) (hRest : 0 + (bytes.drop (64 - s.bufLen.val)).length ≤ 64) (a : Fin 64) :
    Memory.read (Memory.writeBytes (filled bytes s).buf 0 (bytes.drop (64 - s.bufLen.val)) hRest) a =
      if a.val < s.bufLen.val + bytes.length - 64 then bytes.getD (a.val + 64 - s.bufLen.val) 0
      else Memory.read (filled bytes s).buf a := by
  have hBufLen := s.bufLen.isLt
  rw [Memory.read_writeBytes _ _ _ _ _ (filled_wf bytes s hWf), List.length_drop]
  by_cases ha : a.val < s.bufLen.val + bytes.length - 64
  · rw [if_pos (by omega), if_pos ha, List.getD_eq_getElem?_getD, List.getElem?_drop, List.getD_eq_getElem?_getD]
    congr 2
    omega
  · rw [if_neg (by omega), if_neg ha]

/-- Settles O15: the block trigger of UPDATE's bytes, with the filled buffer as `full`. -/
theorem updateThatFindsTheBufferFullStartsACompression :
    Obligations.UpdateThatFindsTheBufferFullStartsACompression := by
  unfold Obligations.UpdateThatFindsTheBufferFullStartsACompression
  intro s nb data hFsm hWf hPos hLe hFull
  have hBufLen := s.bufLen.isLt
  have hLen := dataBytes_length nb data
  obtain ⟨hRest, hEq⟩ := appendBytes_trigger_eq (dataBytes nb data) s (by omega) (by omega)
  refine ⟨(filled (dataBytes nb data) s).buf,
    Memory.writeBytes (filled (dataBytes nb data) s).buf 0 ((dataBytes nb data).drop (64 - s.bufLen.val)) hRest,
    (counterNext 64 s).2, fun a => ?_, fun a => ?_, counterNext_hi 64 s, ?_⟩
  · rw [filled_read _ _ (by omega) hWf]
    split
    · rw [dataBytes_getD data (by omega)]
    · rfl
  · rw [read_writeBytes_drop_filled hWf (by omega) hRest, hLen]
    split
    · rw [dataBytes_getD data (by omega)]
    · rfl
  · rw [exec_update_of_accum nb data hFsm, hEq, hLen]
    rfl

/-- Settles O16: the final block, with the padded buffer as `mem`. -/
theorem finalStartsTheLastCompression : Obligations.FinalStartsTheLastCompression := by
  unfold Obligations.FinalStartsTheLastCompression
  intro s hFsm hWf hAligned
  refine ⟨(padBuffer s).buf, (counterNext s.bufLen.val s).2, padBuffer_read s hWf, counterNext_hi _ s, ?_⟩
  rw [exec_final_of_accum hFsm ((unaligned_eq_false_iff s).mpr hAligned)]
  congr 1
  apply State.ext <;> simp [finalBlock_hidden]

/-! ### Who writes which field -/

/-- An accepted word that fails sets `errs`; one that succeeds leaves it, but for INIT (rule R33). -/
theorem acceptCommand_errs {w data : Word} {s t : State} (h : acceptCommand w data s = .next t) :
    (t.errc ≠ .ok ∧ t.errs = true ∧ decode w data ≠ .instr .init) ∨
      (t.errc = .ok ∧ t.errs = s.errs ∧ decode w data ≠ .instr .init) ∨
      (t.errc = .ok ∧ t.errs = false ∧ decode w data = .instr .init) := by
  rw [acceptCommand] at h
  cases hDec : decode w data with
  | illegal why =>
    rw [hDec] at h
    cases h
    exact .inl ⟨nofun, rfl, nofun⟩
  | instr i =>
    rw [hDec] at h
    rcases exec_cases i s t h with
      ⟨rfl, rfl⟩ | ⟨rfl, hInit⟩ | ⟨nb, bytes, rfl, -, rfl⟩ | ⟨rfl, -, -, rfl⟩ | ⟨-, code, hCode, rfl, hNotInit, -⟩
    · exact .inr (.inl ⟨rfl, rfl, nofun⟩)
    · cases hInit
      exact .inr (.inr ⟨rfl, rfl, rfl⟩)
    · exact .inr (.inl ⟨rfl, (appendBytes_same _ s).errs, nofun⟩)
    · exact .inr (.inl ⟨rfl, rfl, nofun⟩)
    · exact .inl ⟨hCode, rfl, by simpa using hNotInit⟩

/-- Settles O21: by the three kinds of accepted words, and over steps by what the edge is. -/
theorem errorFieldsOfEveryCommand : Obligations.ErrorFieldsOfEveryCommand := by
  unfold Obligations.ErrorFieldsOfEveryCommand
  refine ⟨fun w data s t h => ?_, fun s t h => ⟨fun hRst => ?_, fun hSet hClear => ?_⟩⟩
  · rcases acceptCommand_errs h with ⟨hCode, hErrs, hDec⟩ | ⟨hCode, hErrs, hDec⟩ | ⟨hCode, hErrs, hDec⟩ <;>
      simp [hCode, hErrs, hDec]
  · rw [step, (edgeEvent_reset_iff s).mpr hRst] at h
    cases h
    rfl
  · have hKept : t.errs ≠ s.errs := by simp [hSet, hClear]
    cases edgeLeadsTo_of_step h with
    | reset hRst => exact .inl hRst
    | init hAcc => exact .inr hAcc
    | update nb data => exact absurd (appendBytes_same (dataBytes nb data) (clockHost true s)).errs hKept
    | error => cases hClear
    | complete => exact absurd rfl hKept
    | progress => exact absurd rfl hKept
    | idle => exact absurd rfl hKept
    | nop => exact absurd rfl hKept
    | final => exact absurd rfl hKept

/-- Settles O35: by everything a command can do, and for UPDATE by whether its bytes fit. -/
theorem onlyCompressionsRaiseBusy : Obligations.OnlyCompressionsRaiseBusy := by
  unfold Obligations.OnlyCompressionsRaiseBusy
  intro i s t hBusy hWell h
  cases i with
  | nop => cases h; simp [hBusy]
  | init => cases h; simp [hBusy]
  | update nb data =>
    have hLe := ((wellFormed_update_iff nb data).mp hWell).2
    have hLen := dataBytes_length nb data
    change execUpdate nb data s = .next t at h
    rcases execUpdate_cases nb data s with ⟨hFsm, he⟩ | ⟨hFsm, -, he⟩ | ⟨-, -, he⟩ <;> rw [he] at h <;> cases h
    · rcases appendBytes_upTo64 s (dataBytes nb data) (by omega) hBusy with
        ⟨hFit, hIdle, -⟩ | ⟨hFull, hStarts, -, -, -, hHidden⟩
      · simp [hIdle, show s.bufLen.val + nb ≤ 64 by omega]
      · simp [hStarts, hHidden, hFsm, show 64 < s.bufLen.val + nb by omega]
    · simp [hBusy, hFsm]
  | final =>
    change execFinal s = .next t at h
    have hIff := unaligned_eq_false_iff s
    rcases execFinal_cases s with
      ⟨hFsm, hAligned, he⟩ | ⟨-, hAligned, -, he⟩ | ⟨-, -, -, he⟩ | ⟨hFsm, -, he⟩ | ⟨-, -, he⟩ <;> rw [he] at h <;> cases h
    · simp [finalBlock_hidden, hFsm, ← hIff, hAligned]
    · simp [hBusy, ← hIff, hAligned]
    · simp [hBusy, hFsm]

/-- Settles O45: every other edge leaves `chain`. -/
theorem onlyInitAndCompletionWriteChain : Obligations.OnlyInitAndCompletionWriteChain := by
  unfold Obligations.OnlyInitAndCompletionWriteChain
  intro s t hStep hNe
  cases edgeLeadsTo_of_step hStep with
  | reset hRst => exact .inl hRst
  | init hAcc => exact .inr (.inl ⟨hAcc, rfl⟩)
  | complete hRst hBusy hCyc => exact .inr (.inr ⟨hRst, hBusy, hCyc, rfl, rfl⟩)
  | update nb data =>
    exact absurd (appendBytes_same (dataBytes nb data) (clockHost true s)).chain hNe
  | progress => exact absurd rfl hNe
  | idle => exact absurd rfl hNe
  | nop => exact absurd rfl hNe
  | final => exact absurd rfl hNe
  | error => exact absurd rfl hNe

/-- Settles O46: UPDATE's bytes either fit, and then the counter stays, or 64 are counted. -/
theorem onlyTheseChangeTheCounter : Obligations.OnlyTheseChangeTheCounter := by
  unfold Obligations.OnlyTheseChangeTheCounter
  intro s t hStep hNe
  cases edgeLeadsTo_of_step hStep with
  | reset hRst => exact .inl hRst
  | init hAcc => exact .inr (.inl hAcc)
  | update nb data hAcc hBusy hFsm hPos hLe =>
    have hLen := dataBytes_length nb data
    rcases appendBytes_upTo64 (clockHost true s) (dataBytes nb data) (by omega) hBusy with
      ⟨-, -, hLo, hHi, -⟩ | ⟨hFull, -, hLo, -⟩
    · exact absurd ⟨hLo, hHi⟩ hNe
    · rw [hLen] at hFull
      exact .inr (.inr (.inl ⟨hFsm, ⟨nb, data, hAcc, hFull⟩, hLo⟩))
  | final hAcc _ hFsm => exact .inr (.inr (.inr ⟨hFsm, hAcc, finalBlock_tLo (clockHost true s)⟩))
  | complete => exact absurd ⟨rfl, rfl⟩ hNe
  | progress => exact absurd ⟨rfl, rfl⟩ hNe
  | idle => exact absurd ⟨rfl, rfl⟩ hNe
  | nop => exact absurd ⟨rfl, rfl⟩ hNe
  | error => exact absurd ⟨rfl, rfl⟩ hNe

/-- Everything an edge can do to `f0`. -/
theorem EdgeLeadsTo.f0_cases {s t : State} (h : EdgeLeadsTo s t) :
    t.f0 = s.f0 ∨ (t.f0 = false ∧ (rstNow s = true ∨ Accepts s .init)) ∨
      (t.f0 = true ∧ Accepts s .final ∧ s.fsm = .accum ∧ t.fsm = .final) := by
  cases h with
  | reset hRst => exact .inr (.inl ⟨rfl, .inl hRst⟩)
  | init hAcc => exact .inr (.inl ⟨rfl, .inr hAcc⟩)
  | final hAcc _ hFsm => exact .inr (.inr ⟨rfl, hAcc, hFsm, rfl⟩)
  | update nb data => exact .inl (appendBytes_same (dataBytes nb data) (clockHost true s)).f0
  | complete => exact .inl rfl
  | progress => exact .inl rfl
  | idle => exact .inl rfl
  | nop => exact .inl rfl
  | error => exact .inl rfl

/-- Settles O47, by what the edge does to `f0`. -/
theorem lastBlockFlagIsSetByFinalAlone : Obligations.LastBlockFlagIsSetByFinalAlone := by
  unfold Obligations.LastBlockFlagIsSetByFinalAlone
  intro s t hStep
  rcases (edgeLeadsTo_of_step hStep).f0_cases with hKept | ⟨hClear, hWho⟩ | ⟨hSet, hWho⟩
  · simp +contextual [hKept]
  · exact ⟨by simp [hClear], fun _ _ => hWho⟩
  · exact ⟨fun _ _ => hWho, by simp [hSet]⟩

/-- Everything an edge can do to `fsm`: the arrows of rule R179 that leave a state. -/
theorem EdgeLeadsTo.fsm_cases {s t : State} (h : EdgeLeadsTo s t) :
    t.fsm = s.fsm ∨ (t.fsm = .empty ∧ rstNow s = true) ∨ Accepts s .init ∨ (s.fsm = .accum ∧ t.fsm = .final) := by
  cases h with
  | reset hRst => exact .inr (.inl ⟨rfl, hRst⟩)
  | init hAcc => exact .inr (.inr (.inl hAcc))
  | final _ _ hFsm => exact .inr (.inr (.inr ⟨hFsm, rfl⟩))
  | update nb data => exact .inl (appendBytes_same (dataBytes nb data) (clockHost true s)).fsm
  | complete => exact .inl rfl
  | progress => exact .inl rfl
  | idle => exact .inl rfl
  | nop => exact .inl rfl
  | error => exact .inl rfl

/-- In FINAL and not busy, every edge but reset and INIT leaves what the DIGEST words read (rule R178). -/
theorem EdgeLeadsTo.digestWord_kept {s t : State} (h : EdgeLeadsTo s t) (hFinal : s.fsm = .final) (hIdle : s.busy = false)
    (hRst : rstNow s = false) (hInit : ¬Accepts s .init) (k : Fin 8) : digestWord t k = digestWord s k := by
  cases h with
  | reset hHigh => simp [hRst] at hHigh
  | complete _ hBusy => simp [hIdle] at hBusy
  | progress _ hBusy => simp [hIdle] at hBusy
  | init hAcc => exact absurd hAcc hInit
  | update _ _ _ _ hFsm => simp [hFinal] at hFsm
  | final _ _ hFsm => simp [hFinal] at hFsm
  | idle => rfl
  | nop => rfl
  | error => rfl

/-- Settles O48, by what the edge does to `fsm` and to the DIGEST words. -/
theorem onlyInitAndResetLeaveFinal : Obligations.OnlyInitAndResetLeaveFinal := by
  unfold Obligations.OnlyInitAndResetLeaveFinal
  intro s t hStep
  have hEdge := edgeLeadsTo_of_step hStep
  refine ⟨fun hFinal hLeft => ?_, fun hEmpty hLeft => ?_, hEdge.digestWord_kept⟩
  · rcases hEdge.fsm_cases with hKept | ⟨-, hRst⟩ | hAcc | ⟨hAccum, -⟩
    · exact absurd (hKept.trans hFinal) hLeft
    · exact .inl hRst
    · exact .inr hAcc
    · simp [hFinal] at hAccum
  · rcases hEdge.fsm_cases with hKept | ⟨hStays, -⟩ | hAcc | ⟨hAccum, -⟩
    · exact absurd (hKept.trans hEmpty) hLeft
    · exact absurd hStays hLeft
    · exact hAcc
    · simp [hEmpty] at hAccum

end Sys2Proof.Machine
end

section
/-! Proofs for spec/10_state.md, fourth part: STATUS and the read port. -/

namespace Sys2Proof.Machine

/-! ### STATUS and the read port -/

/-- A concatenation of bit vectors is the sum of its two shifted parts. -/
theorem toNat_append_eq_add {m n : Nat} (x : BitVec m) (y : BitVec n) : (x ++ y).toNat = x.toNat * 2 ^ n + y.toNat := by
  rw [BitVec.toNat_append, ← Nat.shiftLeft_add_eq_or_of_lt y.isLt, Nat.shiftLeft_eq]

/-- STATUS is the sum of its fields at their bits, and nothing else (rule R37). -/
theorem statusWord_toNat (s : State) :
    (statusWord s).toNat =
      s.fsm.code.toNat + 2 ^ 2 * s.busy.toNat + 2 ^ 3 * s.f0.toNat + 2 ^ 4 * s.f1.toNat + 2 ^ 8 * s.bufLen.val
        + 2 ^ 16 * s.errc.code.toNat + 2 ^ 18 * s.errs.toNat + 2 ^ 24 * s.cfg.strict.toNat
        + 2 ^ 25 * s.cfg.blockOnly.toNat + 2 ^ 26 * s.cfg.counterCarry64.toNat := by
  have hLen : s.bufLen.val % 2 ^ 7 = s.bufLen.val := Nat.mod_eq_of_lt (by omega)
  simp only [statusWord, toNat_append_eq_add, BitVec.toNat_ofBool, BitVec.toNat_ofNat, hLen]
  omega

/-- Settles O11: STATUS is the sum of its fields, and reset leaves all but the parameters at 0. -/
theorem resetValues : Obligations.ResetValues := by
  unfold Obligations.ResetValues
  intro p host n
  refine ⟨rfl, fun k => Vector.getElem_replicate _, rfl, rfl, rfl, rfl, fun _ => rfl, rfl, rfl, rfl, rfl, ?_⟩
  rw [statusWord_toNat]
  simp [State.resetWith, Fsm.code, ErrCode.code]

/-- Settles O33: each address selects its own branch of the read port. -/
theorem readPortMap : Obligations.ReadPortMap := by
  unfold Obligations.ReadPortMap
  intro s
  refine ⟨fun k => ?_, rfl, rfl, rfl, fun a ha => ?_⟩
  · have hAddr : (BitVec.ofNat 4 k.val).toNat = k.val := Nat.mod_eq_of_lt (by omega)
    simp [readPort, hAddr, digestWord]
  · have hNe (b : BitVec 4) (hb : b.toNat < 11) : a ≠ b := fun h => by rw [h] at ha; omega
    simp [readPort, show ¬a.toNat < 8 by omega, hNe]

/-- Settles O32: every field lies below the next one's bit in the sum that STATUS is. -/
theorem statusLayout : Obligations.StatusLayout := by
  unfold Obligations.StatusLayout
  intro s
  rw [show readPort s 8 = statusWord s from rfl, statusWord_toNat]
  have := s.fsm.code.isLt
  have := s.errc.code.isLt
  have := s.bufLen.isLt
  have := s.busy.toNat_lt
  have := s.f0.toNat_lt
  have := s.f1.toNat_lt
  have := s.errs.toNat_lt
  have := s.cfg.strict.toNat_lt
  have := s.cfg.blockOnly.toNat_lt
  have := s.cfg.counterCarry64.toNat_lt
  refine ⟨Eq.trans (b := s.fsm.code.toNat) ?_ (by cases s.fsm <;> rfl), ?_, ?_, ?_, ?_, ?_, ?_,
    Eq.trans (b := s.errc.code.toNat) ?_ (by cases s.errc <;> rfl), ?_, ?_, ?_, ?_, ?_, ?_⟩ <;> omega

end Sys2Proof.Machine
end

section
/-! Proofs for spec/10_state.md, fifth part: the hidden fields between compressions and the stale bytes of the buffer reach no
read, now or later (rule R30, rule R35). Each operation of the CORE takes two states that no read tells apart to two such states. -/

namespace Sys2Proof.Machine

/-! ### What two such states show now -/

theorem State.SameVisible.digestWord_eq {s t : State} (h : s.SameVisible t) (k : Fin 8) : digestWord s k = digestWord t k := by
  simp [digestWord, h.fsm, h.busy, h.chain]

theorem State.SameVisible.statusWord_eq {s t : State} (h : s.SameVisible t) : statusWord s = statusWord t := by
  simp [statusWord, h.cfg, h.fsm, h.f0, h.f1, h.bufLen, h.errc, h.errs, h.busy]

theorem State.SameVisible.readPort_eq {s t : State} (h : s.SameVisible t) (a : BitVec 4) : readPort s a = readPort t a := by
  simp only [readPort, h.digestWord_eq, h.statusWord_eq, h.tLo, h.tHi]

theorem State.SameVisible.rstNow_eq {s t : State} (h : s.SameVisible t) : rstNow s = rstNow t := by
  rw [rstNow, rstNow, h.host]

theorem State.SameVisible.edgeEvent_eq {s t : State} (h : s.SameVisible t) : edgeEvent s = edgeEvent t := by
  rw [edgeEvent, edgeEvent, h.rstNow_eq, h.busy, h.host]

/-! ### The field updates -/

theorem State.SameVisible.setHost {s t : State} (h : s.SameVisible t) (p : HostPort) : (s.setHost p).SameVisible (t.setHost p) :=
  { h with host := rfl }

theorem State.SameVisible.clockHost {s t : State} (h : s.SameVisible t) (accepted : Bool) :
    (clockHost accepted s).SameVisible (clockHost accepted t) := by
  rw [clockHost_eq, clockHost_eq, h.host]
  exact h.setHost _

theorem State.SameVisible.setFsm {s t : State} (h : s.SameVisible t) (f : Fsm) : (s.setFsm f).SameVisible (t.setFsm f) :=
  { h with fsm := rfl }

theorem State.SameVisible.setFlags {s t : State} (h : s.SameVisible t) (last node : Bool) :
    (s.setFlags last node).SameVisible (t.setFlags last node) :=
  { h with f0 := rfl, f1 := rfl }

theorem State.SameVisible.succeed {s t : State} (h : s.SameVisible t) : (succeed s).SameVisible (succeed t) :=
  { h with errc := rfl }

theorem State.SameVisible.raiseError {s t : State} (h : s.SameVisible t) (code : ErrCode) :
    (raiseError code s).SameVisible (raiseError code t) :=
  { h with errc := rfl, errs := rfl }

theorem State.SameVisible.counterAdd {s t : State} (h : s.SameVisible t) (n : Nat) :
    (counterAdd n s).SameVisible (counterAdd n t) := by
  have hNext : counterNext n s = counterNext n t := by simp only [counterNext, counter, h.cfg, h.tLo, h.tHi]
  exact { h with tLo := congrArg Prod.fst hNext, tHi := congrArg Prod.snd hNext }

theorem State.SameVisible.initialized {s t : State} (h : s.SameVisible t) : (initialized s).SameVisible (initialized t) :=
  { h with
    fsm := rfl, chain := rfl, tLo := rfl, tHi := rfl, f0 := rfl, f1 := rfl, bufLen := rfl, errc := rfl, errs := rfl
    validBytes := fun _ _ => rfl }

/-! ### The compression -/

/-- A start overwrites every hidden field, and the block it latches is what the buffers read as (rule R35, rule R141). -/
theorem State.SameVisible.startCompress {s t : State} (h : s.SameVisible t)
    (hBlock : ∀ a : Fin 64, Memory.read s.buf a = Memory.read t.buf a) :
    (startCompress s).SameVisible (startCompress t) :=
  { h with
    busy := rfl
    cycles := fun _ => congrArg Params.compressCycles h.cfg
    result := fun _ => by
      rw [startCompress_finishWork, startCompress_finishWork, loadMessage_congr _ _ hBlock]
      simp [h.chain, h.tLo, h.tHi, h.f0, h.f1] }

/-- Both complete, or both advance and keep what the schedule leads to (rule R245). -/
theorem State.SameVisible.busyEdge {s t : State} (h : s.SameVisible t) (hb : s.busy = true) :
    (busyEdge s).SameVisible (busyEdge t) := by
  have hCycles := h.cycles hb
  rcases busyEdge_cases s with ⟨hs, hEqS⟩ | ⟨hs, hEqS⟩ <;> rcases busyEdge_cases t with ⟨ht, hEqT⟩ | ⟨ht, hEqT⟩
  · rw [hEqS, hEqT]
    exact { h with chain := h.result hb, busy := rfl, cycles := nofun, result := nofun }
  · omega
  · omega
  · rw [hEqS, hEqT]
    exact { h with
      cycles := fun _ => congrArg (· - 1) hCycles
      result := fun _ => by
        rw [progressCompress_finishWork, progressCompress_finishWork]
        simpa using h.result hb }

/-! ### The buffer -/

/-- At the block trigger every byte of the buffer is valid. -/
theorem State.SameVisible.flushFull {s t : State} (h : s.SameVisible t) : (flushFull s).SameVisible (flushFull t) := by
  by_cases hFull : s.bufLen = 64
  · rw [flushFull_full s hFull, flushFull_full t (h.bufLen ▸ hFull)]
    have hBlock (a : Fin 64) : Memory.read s.buf a = Memory.read t.buf a :=
      h.validBytes a (by rw [hFull]; exact a.isLt)
    exact { (h.counterAdd 64).startCompress hBlock with bufLen := rfl, validBytes := nofun }
  · rw [flushFull_notFull s hFull, flushFull_notFull t (h.bufLen ▸ hFull)]
    exact h

/-- The stored byte is the same, and the bytes below it were valid. -/
theorem State.SameVisible.storeByte {s t : State} (h : s.SameVisible t) (hs : Memory.wf s.buf = true)
    (ht : Memory.wf t.buf = true) (b : Byte) : (storeByte b s).SameVisible (storeByte b t) := by
  have hAddr : nextAddr s = nextAddr t := by simp only [nextAddr, h.bufLen]
  refine { h with bufLen := ?_, validBytes := fun a ha => ?_ }
  · simp [Machine.storeByte, hAddr]
  · have hNext : (nextAddr s).val ≤ s.bufLen.val := Nat.mod_le _ _
    have hBelow : a.val < (nextAddr s).val + 1 := ha
    change Memory.read (Memory.write s.buf (nextAddr s) b) a = Memory.read (Memory.write t.buf (nextAddr t) b) a
    rw [Memory.read_write _ _ _ _ hs, Memory.read_write _ _ _ _ ht, hAddr]
    split
    · rfl
    · rename_i hNe
      rw [← hAddr, Fin.ext_iff] at hNe
      exact h.validBytes a (by omega)

theorem State.SameVisible.appendBytes {s t : State} (h : s.SameVisible t) (hs : Memory.wf s.buf = true)
    (ht : Memory.wf t.buf = true) (bytes : List Byte) : (appendBytes bytes s).SameVisible (appendBytes bytes t) := by
  induction bytes generalizing s t with
  | nil => exact h
  | cons b bytes ih =>
    have hStored : (appendByte b s).SameVisible (appendByte b t) :=
      h.flushFull.storeByte (by rwa [flushFull_buf]) (by rwa [flushFull_buf]) b
    exact ih hStored (appendBytes_wf [b] s hs) (appendBytes_wf [b] t ht)

/-- Padding overwrites every stale byte with zero (rule R177). -/
theorem State.SameVisible.padBuffer_read_eq {s t : State} (h : s.SameVisible t) (hs : Memory.wf s.buf = true)
    (ht : Memory.wf t.buf = true) (a : Fin 64) : Memory.read (padBuffer s).buf a = Memory.read (padBuffer t).buf a := by
  rw [padBuffer_read s hs, padBuffer_read t ht, h.bufLen]
  split
  · rfl
  · exact h.validBytes a (by rw [h.bufLen]; omega)

theorem State.SameVisible.padBuffer {s t : State} (h : s.SameVisible t) (hs : Memory.wf s.buf = true)
    (ht : Memory.wf t.buf = true) : (padBuffer s).SameVisible (padBuffer t) :=
  { h with validBytes := fun a _ => h.padBuffer_read_eq hs ht a }

theorem State.SameVisible.finalBlock {s t : State} (h : s.SameVisible t) (hs : Memory.wf s.buf = true)
    (ht : Memory.wf t.buf = true) : (finalBlock s).SameVisible (finalBlock t) := by
  have hCounted := (h.counterAdd s.bufLen.val).setFlags true lastNode
  rw [Machine.finalBlock, Machine.finalBlock, ← h.bufLen]
  exact (hCounted.padBuffer hs ht).startCompress (hCounted.padBuffer_read_eq hs ht)

/-! ### The outcomes -/

theorem State.SameVisible.misuse {s t : State} (h : s.SameVisible t) (code : ErrCode) (reason : Fault) :
    SameOutcome (misuse code reason s) (misuse code reason t) := by
  rw [Machine.misuse, Machine.misuse, h.cfg]
  split
  · exact h.raiseError code
  · rfl

/-- A command takes two such states to two such states, or to the same stop. -/
theorem State.SameVisible.exec {s t : State} (h : s.SameVisible t) (hs : Memory.wf s.buf = true)
    (ht : Memory.wf t.buf = true) (i : Instr) : SameOutcome (exec i s) (exec i t) := by
  cases i with
  | nop => exact h.succeed
  | init => exact h.initialized
  | update nb data =>
    change SameOutcome (execUpdate nb data s) (execUpdate nb data t)
    rw [execUpdate, execUpdate, h.fsm]
    split
    · exact h.misuse .misusedState .updateOutsideAccum
    · exact (h.appendBytes hs ht (dataBytes nb data)).succeed
  | final =>
    have hUnaligned : unaligned s = unaligned t := by simp only [unaligned, h.cfg, h.bufLen]
    change SameOutcome (execFinal s) (execFinal t)
    rw [execFinal, execFinal, h.fsm, hUnaligned]
    split
    · exact h.misuse .misusedState .finalOutsideAccum
    · split
      · exact h.misuse .invalidArgument .unalignedLength
      · exact ((h.finalBlock hs ht).setFsm .final).succeed

/-- Reset leaves the same in both, but for the numbering of the free values (rule R40). -/
theorem State.SameVisible.resetEdge {s t : State} (h : s.SameVisible t) : (resetEdge s).SameVisible (resetEdge t) := by
  rw [Machine.resetEdge, Machine.resetEdge, h.cfg, h.host]
  exact ⟨rfl, rfl, rfl, rfl, rfl, rfl, rfl, rfl, rfl, rfl, rfl, rfl, fun _ _ => rfl, nofun, nofun⟩

/-- An edge takes two such states to two such states, or to the same stop. -/
theorem State.SameVisible.step {s t : State} (h : s.SameVisible t) (hs : Memory.wf s.buf = true)
    (ht : Memory.wf t.buf = true) : SameOutcome (step s) (step t) := by
  rw [Machine.step, Machine.step, ← h.edgeEvent_eq]
  cases hEv : edgeEvent s with
  | reset => exact h.resetEdge
  | busy => exact (h.clockHost false).busyEdge ((edgeEvent_busy_iff s).mp hEv).2
  | idle => exact h.clockHost false
  | accept w d =>
    change SameOutcome (acceptCommand w d _) (acceptCommand w d _)
    rw [acceptCommand, acceptCommand]
    cases decode w d with
    | instr i => exact (h.clockHost true).exec hs ht i
    | illegal why => exact (h.clockHost true).raiseError .illegalCommand

/-- Settles O49: no read depends on what two such states may differ in, and no operation brings it to a field that one reads. -/
theorem hiddenFieldsAndStaleBytesAreUnobservable : Obligations.HiddenFieldsAndStaleBytesAreUnobservable := by
  unfold Obligations.HiddenFieldsAndStaleBytesAreUnobservable
  intro s t h hs ht
  exact ⟨h.readPort_eq, by rw [cmdReady, cmdReady, h.rstNow_eq, h.busy], h.step hs ht⟩

end Sys2Proof.Machine
end

section
/-! Proofs for spec/20_memory.md: the canonical form of the buffer's list (rule R51, rule R53), the bytes of the message words
and of the digest (rule R55, rule R58), and the command held while a compression runs (rule R64). -/

namespace Sys2Proof.Machine

/-! ### The canonical form of the buffer -/

/-- Settles O42: a busy, an idle or a failing edge leaves the buffer, reset and INIT empty it, and UPDATE and FINAL write it by
`Memory.write` alone. -/
theorem everyStepKeepsBufferCanonical : Obligations.EveryStepKeepsBufferCanonical := by
  unfold Obligations.EveryStepKeepsBufferCanonical
  intro s t hWf hStep
  cases edgeLeadsTo_of_step hStep with
  | reset | init => rfl
  | complete | progress | idle | nop | error => exact hWf
  | update nb data => exact appendBytes_wf (dataBytes nb data) _ hWf
  | final => exact padBuffer_wf _ hWf

/-! ### The bytes of a word -/

@[simp] theorem store32le_length (w : Word) : (store32le w).length = 4 := rfl

/-- Byte `b` of `store32_le` is bits `8b + 7` down to `8b` (rule R101). -/
theorem store32le_getElem? (w : Word) {b : Nat} (hb : b < 4) : (store32le w)[b]? = some (w.extractLsb' (8 * b) 8) := by
  interval_cases b <;> rfl

/-- `store32_le` gives back the bytes a little-endian word is made of (rule R100, rule R101). -/
theorem store32le_word32le (b0 b1 b2 b3 : Byte) : store32le (word32le b0 b1 b2 b3) = [b0, b1, b2, b3] := by
  have hByte (k : Nat) (b : Byte) (hBits : ∀ i < 8, (word32le b0 b1 b2 b3).getLsbD (k + i) = b.getLsbD i) :
      (word32le b0 b1 b2 b3).extractLsb' k 8 = b :=
    BitVec.eq_of_getLsbD_eq fun i hi => by simp [hi, hBits]
  rw [store32le, hByte 0 b0, hByte 8 b1, hByte 16 b2, hByte 24 b3] <;>
  · intro i hi
    interval_cases i <;> simp [word32le]

/-- Settles O26: `store32_le` takes each message word apart into the four bytes that the message load put together. -/
theorem messageWordsAreLittleEndian : Obligations.MessageWordsAreLittleEndian := by
  unfold Obligations.MessageWordsAreLittleEndian
  intro mem j b
  have hWord : (loadMessage mem)[j] = load32le mem (4 * j.val) (by omega) := by simp [loadMessage]
  have hByte := store32le_getElem? (loadMessage mem)[j] b.isLt
  have hAddr : Fin.ofNat 64 (4 * j.val + b.val) = ⟨4 * j.val + b.val, by omega⟩ := Fin.ext (Nat.mod_eq_of_lt (by omega))
  rw [hWord, load32le, store32le_word32le] at hByte
  rw [hWord, load32le, hAddr, ← Option.some_inj, ← hByte]
  obtain ⟨b, hb⟩ := b
  interval_cases b <;> rfl

/-! ### The digest -/

/-- In a concatenation of lists of one length `n`, place `k` is place `k mod n` of list `k div n`. -/
theorem flatMap_getElem?_of_length_eq {α β : Type} {f : α → List β} {n : Nat} (hLen : ∀ x, (f x).length = n) (hn : 0 < n)
    (l : List α) (k : Nat) : (l.flatMap f)[k]? = l[k / n]?.bind fun x => (f x)[k % n]? := by
  induction l generalizing k with
  | nil => simp
  | cons x xs ih =>
    rw [List.flatMap_cons, List.getElem?_append, hLen]
    split
    next hk => simp [Nat.div_eq_of_lt hk, Nat.mod_eq_of_lt hk]
    next hk =>
      have hk' := Nat.le_of_not_lt hk
      have hDiv : k / n = (k - n) / n + 1 := Nat.div_eq_sub_div hn hk'
      rw [ih, hDiv, List.getElem?_cons_succ, Nat.mod_eq_sub_mod hk']

/-- Settles O34: the digest is a concatenation of four-byte words, each its DIGEST word's `store32_le`. -/
theorem digestBytesAreLittleEndian : Obligations.DigestBytesAreLittleEndian := by
  unfold Obligations.DigestBytesAreLittleEndian
  intro s k word
  have hByte : (digestBytes s)[k.val]? = (store32le (digestWord s word))[k.val % 4]? := by
    rw [digestBytes, flatMap_getElem?_of_length_eq (fun i => store32le_length (digestWord s i)) (by decide),
      List.getElem?_eq_getElem (by simp; omega), List.getElem_finRange, Option.bind_some]
    rfl
  refine ⟨rfl, hByte, fun hFsm hBusy => ?_⟩
  rw [hByte, store32le_getElem? _ (Nat.mod_lt _ (by decide)), digestWord, if_pos ⟨hFsm, hBusy⟩]
  rfl

/-! ### The command held while a compression runs -/

/-- A busy edge, from the levels of `rst` and `busy` (rule R34). -/
theorem step_of_busy {s : State} (hRst : rstNow s = false) (hBusy : s.busy = true) :
    step s = .next (busyEdge (clockHost false s)) := by
  rw [step, (edgeEvent_busy_iff s).mpr ⟨hRst, hBusy⟩]

/-- The first of `k + 1` steps, peeled off. -/
theorem run_succ_of_step {M : Host.Core} {s t : M.State} (h : M.step s = .next t) (k : Nat) : M.run (k + 1) s = M.run k t := by
  rw [Host.Core.run, h]

/-- While `rst` stays low and the host drives the same at every edge, the CORE is busy for the `cyc` edges that remain, and not
busy after them (rule R245). -/
theorem run_of_busy (k : Nat) {s : State} (hBusy : s.busy = true) (hRst : rstNow s = false)
    (hHost : s.host.afterEdge false = s.host) (hPos : 1 ≤ s.hidden.cyc) (hk : k ≤ s.hidden.cyc) :
    ∃ t : State, Host.Core.run Sys2Proof.core k s = .next t ∧ t.host = s.host ∧ (t.busy = true ↔ k < s.hidden.cyc) := by
  induction k generalizing s with
  | zero => exact ⟨s, rfl, rfl, iff_of_true hBusy hPos⟩
  | succ k ih =>
    have hClock : clockHost false s = s := congrArg s.setHost hHost
    have hStep : step s = .next (busyEdge s) := by rw [step_of_busy hRst hBusy, hClock]
    have hRun : Host.Core.run Sys2Proof.core (k + 1) s = Host.Core.run Sys2Proof.core k (busyEdge s) :=
      run_succ_of_step (M := Sys2Proof.core) hStep k
    rw [hRun]
    rcases busyEdge_cases s with ⟨hLast, hEdge⟩ | ⟨hMore, hEdge⟩ <;> rw [hEdge]
    · obtain rfl : k = 0 := by omega
      exact ⟨completeCompress s, rfl, rfl, iff_of_false (by simp) (by omega)⟩
    · have hCyc : (progressCompress s).hidden.cyc = s.hidden.cyc - 1 := rfl
      obtain ⟨t, hReach, hSame, hIff⟩ := ih (s := progressCompress s) hBusy hRst hHost (by omega) (by omega)
      exact ⟨t, hReach, hSame, hIff.trans (by omega)⟩

/-- Settles O37: a host that holds a command, with `rst` low, drives the same at every busy edge, so the command is still
presented when the compression is over. -/
theorem heldCommandIsAcceptedAfterCompletion : Obligations.HeldCommandIsAcceptedAfterCompletion := by
  unfold Obligations.HeldCommandIsAcceptedAfterCompletion
  intro s w data rest hInv hBusy hWire hQueue
  have hHost : s.host.afterEdge false = s.host := by
    rw [afterEdge_held hQueue, hWire, ← hQueue, List.tail_nil, ← hWire]
  have hRst {t : State} (hSame : t.host = s.host) : rstNow t = false := by
    rw [rstNow, hSame, hWire, List.headD_nil]
  have hRun (k : Nat) := run_of_busy k hBusy (hRst rfl) hHost (hInv.busyCycles hBusy).1
  constructor
  · intro k hk
    obtain ⟨t, hReach, hSame, hIff⟩ := hRun k hk.le
    exact ⟨t, hReach, (edgeEvent_busy_iff t).mpr ⟨hRst hSame, hIff.mpr hk⟩⟩
  · obtain ⟨t, hReach, hSame, hIff⟩ := hRun s.hidden.cyc le_rfl
    have hIdle : t.busy = false := by simpa using hIff
    exact ⟨t, hReach, (edgeEvent_accept_iff t w data).mpr ⟨hRst hSame, hIdle, rest, hSame ▸ hQueue⟩⟩

end Sys2Proof.Machine
end

section
/-! Proofs for spec/30_encoding.md, first part: the encoder and the decoder (rule R79, rule R83), the formula of rule R77, the
opcode map (rule R78), and what an accepted word does (rule R70, rule R160, rule R207). -/

namespace Sys2Proof.Machine

/-! ### Decoding and encoding are inverse -/

/-- The four words of UPDATE (rule R83), by NBM1. -/
theorem encode_update_word {n : Nat} (hn : n < 4) (data : Word) :
    (encode (.update (n + 1) data)).1 = BitVec.ofNat 32 (2 + 256 * n) := by
  interval_cases n <;> rfl

theorem decode_update_word {n : Nat} (hn : n < 4) (data : Word) :
    decode (BitVec.ofNat 32 (2 + 256 * n)) data = .instr (.update (n + 1) data) := by
  interval_cases n <;> rfl

/-- A well-formed command decodes from its word, with any DATA that an UPDATE gives (rule R79, rule R83). -/
theorem decode_encode {i : Instr} {data : Word} (hWell : i.wellFormed = true) (hData : ∀ nb x, i = .update nb x → x = data) :
    decode (encode i).1 data = .instr i := by
  cases i with
  | nop => rfl
  | init => rfl
  | final => rfl
  | update nb x =>
    obtain rfl := hData nb x rfl
    obtain ⟨hPos, hLe⟩ := (wellFormed_update_iff nb x).mp hWell
    obtain ⟨n, rfl⟩ : ∃ n, nb = n + 1 := ⟨nb - 1, by omega⟩
    rw [encode_update_word (by omega), decode_update_word (by omega)]

/-- The decoder accepts the words of the encoder alone, and keeps the DATA of an UPDATE (rule R79). -/
theorem encode_of_decode {w data : Word} {i : Instr} (h : decode w data = .instr i) :
    (encode i).1 = w ∧ ∀ nb x, i = .update nb x → x = data := by
  rcases decode_cases w data i h with ⟨rfl, rfl⟩ | ⟨rfl, rfl⟩ | ⟨rfl, rfl⟩ | ⟨n, hn, rfl, rfl⟩
  · exact ⟨rfl, nofun⟩
  · exact ⟨rfl, nofun⟩
  · exact ⟨rfl, nofun⟩
  · exact ⟨encode_update_word hn data, fun nb x hEq => by cases hEq; rfl⟩

/-- Settles O1: by the constructor, and for UPDATE by its four words. -/
theorem decodeOfEncodeIsTheCommand : Obligations.DecodeOfEncodeIsTheCommand := by
  unfold Obligations.DecodeOfEncodeIsTheCommand
  intro i data hWell hData
  refine decode_encode hWell fun nb x hUpdate => ?_
  rw [hData ⟨nb, x, hUpdate⟩, hUpdate]
  rfl

/-- Settles O2, by everything the decoder can answer with a command. -/
theorem encodeOfDecodeIsTheWord : Obligations.EncodeOfDecodeIsTheWord := by
  unfold Obligations.EncodeOfDecodeIsTheWord
  exact fun w data i h => ⟨decode_wellFormed w data i h, encode_of_decode h⟩

/-- Settles O5: each worked word of rule R83 and rule R85, evaluated. -/
theorem workedEncodingsDecode : Obligations.WorkedEncodingsDecode := by
  unfold Obligations.WorkedEncodingsDecode
  decide

/-! ### The formula of rule R77 -/

/-- A word decodes to a command exactly when it is legal. -/
theorem decode_instr_iff_legal (w data : Word) : (∃ i, decode w data = .instr i) ↔ legal w = true := by
  have hIllegal := decode_illegal_iff w data
  cases hDec : decode w data with
  | instr i =>
    have hNot : ¬legal w = false := fun hl => by simpa [hDec] using hIllegal.mpr hl
    exact iff_of_true ⟨i, rfl⟩ (by simpa using hNot)
  | illegal why =>
    have hl : legal w = false := hIllegal.mp ⟨why, hDec⟩
    exact iff_of_false nofun (by simp [hl])

/-- A field of a word has a value exactly when the word's number has it at the field's bits (rule R73). -/
theorem extractLsb'_eq_iff (w : Word) (start len n : Nat) (hn : n < 2 ^ len) :
    w.extractLsb' start len = BitVec.ofNat len n ↔ w.toNat / 2 ^ start % 2 ^ len = n := by
  rw [← BitVec.toNat_inj, BitVec.extractLsb'_toNat, BitVec.toNat_ofNat, Nat.mod_eq_of_lt hn, Nat.shiftRight_eq_div_pow]

/-- `Legal(w)` (rule R77) by arithmetic on the word's number. -/
theorem legal_iff_toNat (w : Word) :
    legal w = true ↔
      (w.toNat % 16 = 0 ∨ w.toNat % 16 = 1 ∨ w.toNat % 16 = 2 ∨ w.toNat % 16 = 3) ∧ w.toNat / 2 ^ 4 % 16 = 0 ∧
        w.toNat / 2 ^ 10 = 0 ∧ (w.toNat % 16 = 2 ∨ w.toNat / 2 ^ 8 % 4 = 0) := by
  have hOpc (n : Nat) (hn : n < 16) : opc w = BitVec.ofNat 4 n ↔ w.toNat % 16 = n :=
    (extractLsb'_eq_iff w 0 4 n hn).trans (by omega)
  have hRsv0 : rsv0 w = 0 ↔ w.toNat / 2 ^ 4 % 16 = 0 := extractLsb'_eq_iff w 4 4 0 (by decide)
  have hNbm1 : nbm1 w = 0 ↔ w.toNat / 2 ^ 8 % 4 = 0 := extractLsb'_eq_iff w 8 2 0 (by decide)
  have hRsv1 : rsv1 w = 0 ↔ w.toNat / 2 ^ 10 = 0 := by
    have := extractLsb'_eq_iff w 10 22 0 (by decide)
    rwa [Nat.mod_eq_of_lt (by omega)] at this
  rw [← hOpc 0 (by decide), ← hOpc 1 (by decide), ← hOpc 2 (by decide), ← hOpc 3 (by decide), ← hRsv0, ← hNbm1, ← hRsv1]
  simp only [legal, Bool.and_eq_true, Bool.or_eq_true, beq_iff_eq, or_assoc, and_assoc]
  rfl

/-! ### What an accepted word does -/

/-- An accepted word of a command is that command (rule R160). -/
theorem acceptCommand_of_instr {w data : Word} {i : Instr} (h : decode w data = .instr i) (s : State) :
    acceptCommand w data s = exec i s := by
  rw [acceptCommand, h]

/-- An accepted word that is not legal raises ILLEGAL_COMMAND, whatever the reason and the state (rule R207). -/
theorem acceptCommand_of_not_legal {w : Word} (h : legal w = false) (data : Word) (s : State) :
    acceptCommand w data s = .next (raiseError .illegalCommand s) := by
  obtain ⟨why, hDec⟩ := (decode_illegal_iff w data).mpr h
  rw [acceptCommand, hDec]
  rfl

/-- Settles O3: the formula is the model's `legal`, which the decoder decides. -/
theorem legalWordsAreThoseOfTheFormula : Obligations.LegalWordsAreThoseOfTheFormula := by
  unfold Obligations.LegalWordsAreThoseOfTheFormula
  intro w data s
  have hFormula := legal_iff_toNat w
  exact ⟨(decode_instr_iff_legal w data).trans hFormula, fun hNot =>
    acceptCommand_of_not_legal (Bool.eq_false_iff.mpr fun hl => hNot (hFormula.mp hl)) data s⟩

/-! ### The opcode map -/

/-- A command's own row selects its word (rule R78). -/
theorem row_selects_encode {i : Instr} (h : i.wellFormed = true) : i.row.selects (encode i).1 = true := by
  cases i with
  | nop => exact Laws.EncodesToItsRow.nop h
  | init => exact Laws.EncodesToItsRow.init h
  | update nb data => exact Laws.EncodesToItsRow.update nb data h
  | final => exact Laws.EncodesToItsRow.final h

/-- A row whose mask is all ones selects its match alone. -/
theorem selects_of_full_mask {r : OpcodeRow} (hMask : r.mask = BitVec.allOnes 32) {w : Word} (h : r.selects w = true) :
    w = r.pattern := by
  rwa [OpcodeRow.selects, hMask, BitVec.and_allOnes, beq_iff_eq] at h

/-- The UPDATE row leaves NBM1 free and fixes every other field (rule R78). -/
theorem decode_of_updateRow_selects {w : Word} (h : updateRow.selects w = true) (data : Word) :
    decode w data = .instr (.update ((nbm1 w).toNat + 1) data) := by
  have hMasked : w &&& updateRow.mask = updateRow.pattern := beq_iff_eq.mp h
  have hField (start len : Nat) (hMask : updateRow.mask.extractLsb' start len = BitVec.allOnes len) :
      w.extractLsb' start len = updateRow.pattern.extractLsb' start len := by
    rw [← hMasked, BitVec.extractLsb'_and, hMask, BitVec.and_allOnes]
  have hOpc : opc w = 2 := hField 0 4 rfl
  have hRsv0 : rsv0 w = 0 := hField 4 4 rfl
  have hRsv1 : rsv1 w = 0 := hField 10 22 rfl
  simp [decode, hOpc, hRsv0, hRsv1]

/-- A row of the map that selects a word is the row of the command the word decodes to. -/
theorem decode_of_selects {r : OpcodeRow} (hr : r ∈ opcodeMap) {w : Word} (h : r.selects w = true) (data : Word) :
    ∃ i, decode w data = .instr i ∧ i.row = r := by
  simp only [opcodeMap, List.mem_cons, List.not_mem_nil, or_false] at hr
  rcases hr with rfl | rfl | rfl | rfl
  · exact ⟨.nop, by rw [selects_of_full_mask rfl h]; rfl, rfl⟩
  · exact ⟨.init, by rw [selects_of_full_mask rfl h]; rfl, rfl⟩
  · exact ⟨_, decode_of_updateRow_selects h data, rfl⟩
  · exact ⟨.final, by rw [selects_of_full_mask rfl h]; rfl, rfl⟩

/-- Settles O4: a row that selects a word is the row of its command, so two such rows are one. -/
theorem opcodeMapSelectsOneRow : Obligations.OpcodeMapSelectsOneRow := by
  unfold Obligations.OpcodeMapSelectsOneRow
  intro w data
  refine ⟨fun r1 h1 r2 h2 hs1 hs2 => ?_, fun r hr => ⟨fun hs => decode_of_selects hr hs data, ?_⟩⟩
  · obtain ⟨i1, hDec1, rfl⟩ := decode_of_selects h1 hs1 data
    obtain ⟨i2, hDec2, rfl⟩ := decode_of_selects h2 hs2 data
    rw [hDec1] at hDec2
    cases hDec2
    rfl
  · rintro ⟨i, hDec, rfl⟩
    obtain ⟨rfl, -⟩ := encode_of_decode hDec
    exact row_selects_encode (decode_wellFormed _ data i hDec)

/-! ### The DATA of a command -/

/-- UPDATE reads its DATA through its bytes alone (rule R82). -/
theorem exec_update_congr {nb : Nat} {d1 d2 : Word} (h : dataBytes nb d1 = dataBytes nb d2) (s : State) :
    exec (.update nb d1) s = exec (.update nb d2) s := by
  simp only [exec, execUpdate, h]

/-- Settles O22: an illegal word never reads DATA, nor do the words of NOP, INIT and FINAL; an UPDATE reads its bytes. -/
theorem unusedDataBitsAreIgnored : Obligations.UnusedDataBitsAreIgnored := by
  unfold Obligations.UnusedDataBitsAreIgnored
  intro w d1 d2 s hBytes
  cases hLegal : legal w with
  | false => rw [acceptCommand_of_not_legal hLegal, acceptCommand_of_not_legal hLegal]
  | true =>
    obtain ⟨i, hDec⟩ := (decode_instr_iff_legal w d1).mpr hLegal
    rcases decode_cases w d1 i hDec with ⟨rfl, rfl⟩ | ⟨rfl, rfl⟩ | ⟨rfl, rfl⟩ | ⟨n, hn, rfl, rfl⟩
    · rfl
    · rfl
    · rfl
    · rw [acceptCommand_of_instr (decode_update_word hn d1), acceptCommand_of_instr (decode_update_word hn d2)]
      refine exec_update_congr (List.map_congr_left fun k hk => hBytes ?_ k ?_) s
      · simp only [BitVec.toNat_ofNat]
        omega
      · have hLt := List.mem_range.mp hk
        simp only [BitVec.toNat_ofNat]
        omega

/-- Settles O14: the bytes that fit are one `MemWrite` at `buf_len`. -/
theorem updateThatFitsStoresItsBytes : Obligations.UpdateThatFitsStoresItsBytes := by
  unfold Obligations.UpdateThatFitsStoresItsBytes
  intro s nb data hFsm hWf _ _ hFit
  have hLen := dataBytes_length nb data
  have hFit' : s.bufLen.val + (dataBytes nb data).length ≤ 64 := by omega
  refine ⟨Memory.writeBytes s.buf s.bufLen.val (dataBytes nb data) hFit', ?_, fun a => ?_⟩
  · have hBufLen : (⟨s.bufLen.val + (dataBytes nb data).length, by omega⟩ : Fin 65) = Fin.ofNat 65 (s.bufLen.val + nb) :=
      Fin.ext (by simp only [Fin.ofNat, hLen]; omega)
    rw [exec_update_of_accum nb data hFsm, appendBytes_fit _ _ hFit', hBufLen]
    rfl
  · rw [Memory.read_writeBytes _ _ _ _ _ hWf, hLen]
    split
    next hIn => exact dataBytes_getD data (by omega)
    next => rfl

/-! ### The edge that accepts -/

/-- Settles O8, by the levels of `rst` and `busy`. -/
theorem acceptanceNeedsReady : Obligations.AcceptanceNeedsReady := by
  unfold Obligations.AcceptanceNeedsReady
  intro s w data
  have hReady : cmdReady s = true ↔ rstNow s = false ∧ s.busy = false := by simp [cmdReady]
  exact ⟨by rw [edgeEvent_accept_iff, hReady, and_assoc], hReady⟩

/-- An accepted command is withdrawn (rule R70). -/
theorem afterEdge_accepted {h : HostPort} {w data : Word} {rest : List Presented} (hq : h.queue = .command w data :: rest) :
    h.afterEdge true = { rstWire := h.rstWire.tail, queue := rest } := by
  simp [HostPort.afterEdge, hq]

/-- The step of a ready CORE with a command presented: the accepted word, after the host's side of the edge. -/
theorem step_of_presented {s : State} {w data : Word} {rest : List Presented} (hRst : rstNow s = false)
    (hBusy : s.busy = false) (hQueue : s.host.queue = .command w data :: rest) :
    step s = acceptCommand w data (s.setHost { rstWire := s.host.rstWire.tail, queue := rest }) := by
  rw [step, (edgeEvent_accept_iff s w data).mpr ⟨hRst, hBusy, rest, hQueue⟩, ← afterEdge_accepted hQueue]
  rfl

/-- Settles O6: the accepted word is the decoded command. -/
theorem stepRunsTheDecodedCommand : Obligations.StepRunsTheDecodedCommand := by
  unfold Obligations.StepRunsTheDecodedCommand
  intro s w data rest i hRst hBusy hQueue hDec
  exact ⟨decode_wellFormed w data i hDec,
    (step_of_presented hRst hBusy hQueue).trans (acceptCommand_of_instr hDec _)⟩

/-- Settles O7: the accepted word raises the error, and the host's side is the edge's own. -/
theorem stepRaisesIllegalCommand : Obligations.StepRaisesIllegalCommand := by
  unfold Obligations.StepRaisesIllegalCommand
  intro s w data rest hRst hBusy hQueue hIllegal
  exact (step_of_presented hRst hBusy hQueue).trans (acceptCommand_of_not_legal hIllegal data _)

end Sys2Proof.Machine
end

section
/-! Proofs for spec/30_encoding.md, second part: the expansion of UPDATE_BYTES (rule R86), and a run of commands that feed bytes
as the append of the bytes they pass, however these are chunked (rule R170). -/

namespace Sys2Proof.Machine

/-! ### UPDATE_BYTES -/

/-- A word is its four bytes (rule R100). -/
theorem word32le_toNat (b0 b1 b2 b3 : Byte) :
    (word32le b0 b1 b2 b3).toNat = b0.toNat + 2 ^ 8 * b1.toNat + 2 ^ 16 * b2.toNat + 2 ^ 24 * b3.toNat := by
  have hBytes := store32le_word32le b0 b1 b2 b3
  have hLt := (word32le b0 b1 b2 b3).isLt
  simp only [store32le, List.cons.injEq, ← BitVec.toNat_inj, BitVec.extractLsb'_toNat, Nat.shiftRight_eq_div_pow] at hBytes
  omega

/-- The bytes of an UPDATE are the first of its DATA's `store32_le` (rule R76). -/
theorem dataBytes_eq_take {nb : Nat} (hn : nb ≤ 4) (data : Word) : dataBytes nb data = (store32le data).take nb := by
  interval_cases nb <;> rfl

/-- An UPDATE of packed bytes passes these bytes (rule R86). -/
theorem dataBytes_packBytes {l : List Byte} (hl : l.length ≤ 4) : dataBytes l.length (packBytes l) = l := by
  rw [dataBytes_eq_take hl, packBytes, store32le_word32le]
  match l, hl with
  | [], _ => rfl
  | [_], _ => rfl
  | [_, _], _ => rfl
  | [_, _, _], _ => rfl
  | [_, _, _, _], _ => rfl

/-- A packed data word is zero above its bytes (rule R86). -/
theorem packBytes_lt {l : List Byte} (hl : l.length ≤ 4) : (packBytes l).toNat < 2 ^ (8 * l.length) := by
  have hByte (k : Nat) : (l.getD k 0).toNat < 2 ^ 8 ∧ (l.length ≤ k → (l.getD k 0).toNat = 0) :=
    ⟨(l.getD k 0).isLt, fun hk => by rw [List.getD_eq_default _ _ hk]; rfl⟩
  have h0 := hByte 0
  have h1 := hByte 1
  have h2 := hByte 2
  have h3 := hByte 3
  rw [packBytes, word32le_toNat]
  generalize l.length = n at *
  interval_cases n <;> omega

theorem passedBytes_cons (i : Instr) (rest : List Instr) : passedBytes (i :: rest) = Instr.passed i ++ passedBytes rest :=
  List.flatMap_cons

/-- A list that does not begin with four bytes is shorter. -/
theorem length_lt_four {l : List Byte} (h : ∀ b0 b1 b2 b3 rest, l = b0 :: b1 :: b2 :: b3 :: rest → False) : l.length < 4 := by
  match l with
  | [] | [_] | [_, _] | [_, _, _] => simp
  | b0 :: b1 :: b2 :: b3 :: rest => exact (h b0 b1 b2 b3 rest rfl).elim

/-- Settles O50, along the recursion of `updateBytes`: four bytes at a time, then the one to three left. -/
theorem updateBytesPassesItsBytes : Obligations.UpdateBytesPassesItsBytes := by
  unfold Obligations.UpdateBytesPassesItsBytes
  intro bytes
  induction bytes using updateBytes.induct with
  | case1 b0 b1 b2 b3 rest ih =>
    obtain ⟨hPassed, hLength, hEach⟩ := ih
    have hPack : dataBytes 4 (packBytes [b0, b1, b2, b3]) = [b0, b1, b2, b3] :=
      dataBytes_packBytes (l := [b0, b1, b2, b3]) le_rfl
    rw [updateBytes]
    refine ⟨?_, ?_, ?_⟩
    · rw [passedBytes_cons, hPassed, Instr.passed, hPack]
      rfl
    · simp only [List.length_cons, hLength]
      omega
    · rw [List.forall_mem_cons]
      exact ⟨⟨4, _, rfl, by decide, le_rfl, packBytes_lt (l := [b0, b1, b2, b3]) le_rfl⟩, hEach⟩
  | case2 => exact ⟨rfl, rfl, nofun⟩
  | case3 tail hShort hNe =>
    have hPos : 1 ≤ tail.length := List.length_pos_iff.mpr hNe
    have hLt : tail.length < 4 := length_lt_four hShort
    rw [updateBytes.eq_3 tail hShort hNe]
    refine ⟨?_, by simp only [List.length_singleton]; omega, ?_⟩
    · rw [passedBytes, List.flatMap_singleton, Instr.passed, dataBytes_packBytes hLt.le]
    · rw [List.forall_mem_singleton]
      exact ⟨_, _, rfl, hPos, hLt.le, packBytes_lt hLt.le⟩

/-! ### Appending bytes with each busy interval collapsed -/

theorem collapse_of_idle {s : State} (h : s.busy = false) : collapse s = s := by simp [collapse, h]

theorem collapse_of_busy {s : State} (h : s.busy = true) : collapse s = completeCompress s := by simp [collapse, h]

@[simp] theorem collapse_busy (s : State) : (collapse s).busy = false := by
  cases h : s.busy <;> simp [collapse, h]

@[simp] theorem collapse_cfg (s : State) : (collapse s).cfg = s.cfg := by
  cases h : s.busy <;> simp [collapse, h]

@[simp] theorem collapse_fsm (s : State) : (collapse s).fsm = s.fsm := by
  cases h : s.busy <;> simp [collapse, h]

@[simp] theorem collapse_bufLen (s : State) : (collapse s).bufLen = s.bufLen := by
  cases h : s.busy <;> simp [collapse, h]

theorem collapse_collapse (s : State) : collapse (collapse s) = collapse s := collapse_of_idle (collapse_busy s)

/-- A byte that is stored while a compression runs may as well be stored after it (rule R35). -/
theorem collapse_storeByte (b : Byte) (s : State) : collapse (storeByte b s) = storeByte b (collapse s) := by
  have hBusy := storeByte_busy b s
  cases h : s.busy
  · rw [collapse_of_idle h, collapse_of_idle (hBusy.trans h)]
  · rw [collapse_of_busy h, collapse_of_busy (hBusy.trans h)]
    rfl

theorem appendByte_of_not_full {s : State} (b : Byte) (h : s.bufLen ≠ 64) : appendByte b s = storeByte b s := by
  rw [appendByte, flushFull_notFull s h]

/-- Bytes that fit may be stored after the compression that runs, if any, instead of during it. -/
theorem collapse_appendBytes_of_fit (bytes : List Byte) (s : State) (h : s.bufLen.val + bytes.length ≤ 64) :
    collapse (appendBytes bytes s) = appendCollapsed bytes (collapse s) := by
  induction bytes generalizing s with
  | nil => rfl
  | cons b bytes ih =>
    rw [List.length_cons] at h
    have hNot {t : State} (hLen : t.bufLen = s.bufLen) : t.bufLen ≠ 64 := fun hFull => by
      rw [← hLen, hFull] at h
      simp at h
    have hNext : (storeByte b s).bufLen.val ≤ s.bufLen.val + 1 := Nat.add_le_add_right (Nat.mod_le _ _) 1
    rw [appendBytes, appendCollapsed, appendByte_of_not_full b (hNot rfl),
      appendByte_of_not_full b (hNot (collapse_bufLen s)), ih _ (by omega), collapse_storeByte, collapse_storeByte,
      collapse_collapse]

/-- The bytes of one command find the buffer full at most once: collapsing its busy interval is collapsing each byte's. -/
theorem collapse_appendBytes {bytes : List Byte} {s : State} (hIdle : s.busy = false) (hLen : bytes.length ≤ 64) :
    collapse (appendBytes bytes s) = appendCollapsed bytes s := by
  induction bytes generalizing s with
  | nil => exact collapse_of_idle hIdle
  | cons b bytes ih =>
    rw [List.length_cons] at hLen
    rw [appendBytes, appendCollapsed]
    by_cases hFull : s.bufLen = 64
    · have hOne : (appendByte b s).bufLen = 1 := by rw [appendByte, flushFull_full s hFull]; rfl
      rw [collapse_appendBytes_of_fit bytes _ (by rw [hOne, Fin.val_one]; omega)]
    · have hStored : (appendByte b s).busy = false := by rw [appendByte_of_not_full b hFull]; exact hIdle
      rw [ih hStored (by omega), collapse_of_idle hStored]

theorem appendCollapsed_append (as bs : List Byte) (s : State) :
    appendCollapsed (as ++ bs) s = appendCollapsed bs (appendCollapsed as s) := by
  induction as generalizing s with
  | nil => rfl
  | cons a as ih => exact ih _

theorem appendCollapsed_busy (bytes : List Byte) {s : State} (h : s.busy = false) : (appendCollapsed bytes s).busy = false := by
  induction bytes generalizing s with
  | nil => exact h
  | cons b bytes ih => exact ih (collapse_busy _)

theorem appendCollapsed_fsm (bytes : List Byte) (s : State) : (appendCollapsed bytes s).fsm = s.fsm := by
  induction bytes generalizing s with
  | nil => rfl
  | cons b bytes ih => rw [appendCollapsed, ih, collapse_fsm, (appendByte_same b s).fsm]

/-! ### A run of commands that feed bytes -/

theorem collapse_succeed (s : State) : collapse (succeed s) = succeed (collapse s) := by
  have hBusy := succeed_busy s
  cases h : s.busy
  · rw [collapse_of_idle h, collapse_of_idle (hBusy.trans h)]
  · rw [collapse_of_busy h, collapse_of_busy (hBusy.trans h)]
    rfl

theorem appendByte_succeed (b : Byte) (s : State) : appendByte b (succeed s) = succeed (appendByte b s) := by
  by_cases h : s.bufLen = 64
  · rw [appendByte, appendByte, flushFull_full s h, flushFull_full (succeed s) h]
    rfl
  · rw [appendByte_of_not_full b h, appendByte_of_not_full (s := succeed s) b h]
    rfl

/-- AppendByte neither reads nor writes the result code. -/
theorem appendCollapsed_succeed (bytes : List Byte) (s : State) :
    appendCollapsed bytes (succeed s) = succeed (appendCollapsed bytes s) := by
  induction bytes generalizing s with
  | nil => rfl
  | cons b bytes ih => rw [appendCollapsed, appendCollapsed, appendByte_succeed, collapse_succeed, ih]

/-- A command that feeds bytes appends them and clears the result code (rule R161, rule R170). -/
theorem execCollapsed_of_isFeed {i : Instr} {s : State} (hFeed : Instr.isFeed i = true) (hFsm : s.fsm = .accum)
    (hIdle : s.busy = false) : execCollapsed i s = .next (succeed (appendCollapsed (Instr.passed i) s)) := by
  cases i with
  | nop => exact congrArg Host.Outcome.next (collapse_of_idle hIdle)
  | init => cases hFeed
  | final => cases hFeed
  | update nb data =>
    have hLe := ((wellFormed_update_iff nb data).mp hFeed).2
    have hLen := dataBytes_length nb data
    rw [execCollapsed, exec_update_of_accum nb data hFsm, collapseOutcome, collapse_succeed,
      collapse_appendBytes hIdle (by omega), Instr.passed]

/-- A run of such commands is the append of all the bytes they pass, but for the result code (rule R86). -/
theorem execAll_of_isFeed {cmds : List Instr} {s : State} (hFeed : ∀ i ∈ cmds, Instr.isFeed i = true) (hFsm : s.fsm = .accum)
    (hIdle : s.busy = false) :
    ∃ t, execAll cmds s = .next t ∧ succeed t = succeed (appendCollapsed (passedBytes cmds) s) := by
  induction cmds generalizing s with
  | nil => exact ⟨s, rfl, rfl⟩
  | cons i rest ih =>
    obtain ⟨hHead, hRest⟩ := List.forall_mem_cons.mp hFeed
    obtain ⟨t, hRun, hSame⟩ := ih (s := succeed (appendCollapsed (Instr.passed i) s)) hRest
      ((appendCollapsed_fsm (Instr.passed i) s).trans hFsm) (appendCollapsed_busy (Instr.passed i) hIdle)
    refine ⟨t, ?_, ?_⟩
    · rw [execAll, execCollapsed_of_isFeed hHead hFsm hIdle]
      exact hRun
    · rw [hSame, passedBytes_cons, appendCollapsed_append, appendCollapsed_succeed]
      rfl

/-- Settles O51: both runs append the same bytes, and so agree in every field but the result code. -/
theorem chunkingDoesNotMatter : Obligations.ChunkingDoesNotMatter := by
  unfold Obligations.ChunkingDoesNotMatter
  intro s cmds1 cmds2 hFsm _ hIdle hFeed1 hFeed2 hBytes
  obtain ⟨t1, hRun1, hEnd1⟩ := execAll_of_isFeed hFeed1 hFsm hIdle
  obtain ⟨t2, hRun2, hEnd2⟩ := execAll_of_isFeed hFeed2 hFsm hIdle
  have hSame : succeed t1 = succeed t2 := by rw [hEnd1, hEnd2, hBytes]
  have hField {α : Type} (f : State → α) : f (succeed t1) = f (succeed t2) := congrArg f hSame
  exact ⟨t1, t2, hRun1, hRun2, hField State.fsm, hField State.chain, hField State.tLo, hField State.tHi, hField State.bufLen,
    fun a _ => congrArg (Memory.read · a) (hField State.buf)⟩

end Sys2Proof.Machine
end

section
/-! Proofs for spec/30_encoding.md, third part: the host program HASH (rule R87). What the CORE holds of a stream of bytes is one
predicate, which INIT establishes and each appended byte keeps (rule R173, rule R174); FINAL takes it to the hash (rule R180). -/

namespace Sys2Proof.Machine

/-! ### The stream's blocks -/

/-- A whole block of the stream stays the same when bytes follow. -/
theorem streamMessage_append {bytes : List Byte} {j : Nat} (h : 64 * (j + 1) ≤ bytes.length) (more : List Byte) :
    streamMessage (bytes ++ more) j = streamMessage bytes j := by
  have hByte {k : Nat} (hk : k < 64) : (bytes ++ more).getD (64 * j + k) 0 = bytes.getD (64 * j + k) 0 :=
    List.getD_append _ _ _ _ (by omega)
  refine congrArg Vector.ofFn (funext fun i => ?_)
  simp only [Nat.add_assoc]
  rw [hByte (by omega), hByte (by omega), hByte (by omega), hByte (by omega)]

/-- So does the chaining value after whole blocks. -/
theorem streamChain_append (carry : Bool) {bytes : List Byte} {j : Nat} (h : 64 * j ≤ bytes.length) (more : List Byte) :
    streamChain carry (bytes ++ more) j = streamChain carry bytes j := by
  induction j with
  | zero => rfl
  | succ j ih => rw [streamChain, streamChain, ih (by omega), streamMessage_append h]

/-- A buffer that reads as block `j` of the stream loads its message words (rule R141). -/
theorem loadMessage_eq_streamMessage {mem : Memory} {bytes : List Byte} {j : Nat}
    (h : ∀ a : Fin 64, Memory.read mem a = bytes.getD (64 * j + a.val) 0) : loadMessage mem = streamMessage bytes j := by
  ext i hi
  simp only [loadMessage, load32le, streamMessage, Vector.getElem_ofFn, h, Nat.add_assoc]

/-! ### The counter of the stream -/

theorem countLo_add (n k : Nat) : countLo n + BitVec.ofNat 32 k = countLo (n + k) := (BitVec.ofNat_add n k).symm

/-- CounterAdd on a counter that has counted `n` bytes from 0 (rule R25). -/
theorem counterNext_hi_of_counted {s : State} {n : Nat} (hLo : s.tLo = countLo n)
    (hHi : s.tHi = countHi s.cfg.counterCarry64 n) (k : Nat) :
    (counterNext k s).2 = countHi s.cfg.counterCarry64 (n + k) := by
  rw [counterNext_hi, hLo, hHi]
  cases s.cfg.counterCarry64 with
  | false => rfl
  | true =>
    apply BitVec.eq_of_toNat_eq
    simp only [countHi, countLo, if_true, BitVec.toNat_ofNat]
    omega

/-! ### What the CORE holds of a stream -/

/-- In ACCUM and not busy, `q` blocks of the stream have been counted and compressed as non-final blocks, and the buffer holds
the rest of its bytes (rule R174). -/
structure Absorbed (p : Params) (bytes : List Byte) (q : Nat) (s : State) : Prop where
  cfg : s.cfg = p
  fsm : s.fsm = .accum
  busy : s.busy = false
  f0 : s.f0 = false
  f1 : s.f1 = false
  bufWf : Memory.wf s.buf = true
  chain : s.chain = streamChain p.counterCarry64 bytes q
  tLo : s.tLo = countLo (64 * q)
  tHi : s.tHi = countHi p.counterCarry64 (64 * q)
  length : 64 * q + s.bufLen.val = bytes.length
  validBytes : ∀ a : Fin 64, a.val < s.bufLen.val → Memory.read s.buf a = bytes.getD (64 * q + a.val) 0

/-- INIT starts the empty stream (rule R164). -/
theorem absorbed_initialized {s : State} (hIdle : s.busy = false) : Absorbed s.cfg [] 0 (initialized s) where
  cfg := rfl
  fsm := rfl
  busy := hIdle
  f0 := rfl
  f1 := rfl
  bufWf := rfl
  chain := rfl
  tLo := rfl
  tHi := by cases hc : s.cfg.counterCarry64 <;> rfl
  length := rfl
  validBytes := nofun

/-- The same state with other values in the hidden fields and another number for the free value to come (log 5, log 7). -/
def State.withFree (hid : Hidden) (n : Nat) (s : State) : State := { s with hidden := hid, freeCount := n }

theorem Absorbed.withFree {p : Params} {bytes : List Byte} {q : Nat} {s : State} (h : Absorbed p bytes q s) (hid : Hidden)
    (n : Nat) : Absorbed p bytes q (s.withFree hid n) :=
  { h with }

theorem Absorbed.succeed {p : Params} {bytes : List Byte} {q : Nat} {s : State} (h : Absorbed p bytes q s) :
    Absorbed p bytes q (succeed s) :=
  { h with }

/-- What a compression that was just started will fold into `chain` (rule R143, rule R146). -/
theorem startCompress_result (s : State) :
    foldState (startCompress s).hidden.hIn (startCompress s).hidden.finishWork =
      compressWords s.chain (loadMessage s.buf) s.tLo s.tHi s.f0 s.f1 := by
  rw [startCompress_finishWork]
  rfl

/-- What the block trigger's compression writes to `chain` (rule R171). -/
theorem collapse_flushFull_chain {s : State} (hFull : s.bufLen = 64) :
    (collapse (flushFull s)).chain =
      compressWords s.chain (loadMessage s.buf) (s.tLo + 64) (counterNext 64 s).2 s.f0 s.f1 := by
  rw [flushFull_full s hFull, collapse_of_busy (State.setBufLen_busy _ _), completeCompress_chain, State.setBufLen_hidden,
    startCompress_result, counterAdd_tLo]
  rfl

/-- The block trigger compresses the full buffer as the next block of the stream (rule R171). -/
theorem Absorbed.flushFull {p : Params} {bytes : List Byte} {q : Nat} {s : State} (h : Absorbed p bytes q s)
    (hFull : s.bufLen = 64) : Absorbed p bytes (q + 1) (collapse (flushFull s)) := by
  have hLength : 64 * q + 64 = bytes.length := by have := h.length; rwa [hFull] at this
  have hMessage : loadMessage s.buf = streamMessage bytes q :=
    loadMessage_eq_streamMessage fun a => h.validBytes a (by rw [hFull]; exact a.isLt)
  have hLo : s.tLo + 64 = countLo (64 * (q + 1)) := by rw [h.tLo]; exact countLo_add (64 * q) 64
  have hHi : (counterNext 64 s).2 = countHi p.counterCarry64 (64 * (q + 1)) := by
    rw [← h.cfg]
    exact counterNext_hi_of_counted h.tLo (by rw [h.tHi, h.cfg]) 64
  have hChain : (collapse (Machine.flushFull s)).chain = streamChain p.counterCarry64 bytes (q + 1) := by
    rw [collapse_flushFull_chain hFull, h.chain, hMessage, hLo, hHi, h.f0, h.f1, streamChain]
  rw [flushFull_full s hFull, collapse_of_busy (State.setBufLen_busy _ _)] at hChain ⊢
  exact {
    cfg := by simp [h.cfg]
    fsm := by simp [h.fsm]
    busy := completeCompress_busy _
    f0 := by simp [h.f0]
    f1 := by simp [h.f1]
    bufWf := by simp [h.bufWf]
    chain := hChain
    tLo := by simpa using hLo
    tHi := by simpa using hHi
    length := by simp; omega
    validBytes := by simp }

/-- A byte that finds room is the next one of the stream (rule R172). -/
theorem Absorbed.storeByte {p : Params} {bytes : List Byte} {q : Nat} {s : State} (h : Absorbed p bytes q s)
    (hRoom : s.bufLen.val < 64) (b : Byte) : Absorbed p (bytes ++ [b]) q (storeByte b s) := by
  have hAddr : (nextAddr s).val = s.bufLen.val := Nat.mod_eq_of_lt hRoom
  have hLength := h.length
  have hLen : (Machine.storeByte b s).bufLen.val = s.bufLen.val + 1 := congrArg (· + 1) hAddr
  exact { h with
    bufWf := Memory.wf_write _ _ _ h.bufWf
    chain := by rw [streamChain_append _ (by omega)]; exact h.chain
    length := by rw [hLen, List.length_append, List.length_singleton]; omega
    validBytes := fun a ha => by
      refine (Memory.read_write _ _ _ _ h.bufWf).trans ?_
      simp only [Fin.ext_iff, hAddr]
      split
      next hHere => rw [hHere, hLength, List.getD_append_right _ _ _ _ le_rfl, Nat.sub_self, List.getD_cons_zero]
      next hNot => rw [h.validBytes a (by omega), List.getD_append _ _ _ _ (by omega)] }

/-- The CORE holds the stream `bytes`: all but the last block, of 1 to 64 bytes, has been compressed (rule R174). -/
def TookIn (p : Params) (bytes : List Byte) (s : State) : Prop := Absorbed p bytes (interiorBlocks bytes.length) s

/-- AppendByte, with its busy interval collapsed, takes in one byte more (rule R171). -/
theorem TookIn.appendByte {p : Params} {bytes : List Byte} {s : State} (h : TookIn p bytes s) (b : Byte) :
    TookIn p (bytes ++ [b]) (collapse (appendByte b s)) := by
  have hLength := Absorbed.length h
  rw [Machine.appendByte, collapse_storeByte, TookIn, List.length_append, List.length_singleton]
  by_cases hFull : s.bufLen = 64
  · have hFlushed := Absorbed.flushFull h hFull
    have hWhole : 64 * interiorBlocks bytes.length + 64 = bytes.length := by rwa [hFull] at hLength
    have hBlocks : interiorBlocks (bytes.length + 1) = interiorBlocks bytes.length + 1 := by
      rw [interiorBlocks, Nat.add_sub_cancel]
      omega
    rw [hBlocks]
    exact hFlushed.storeByte (by have := hFlushed.length; omega) b
  · have hRoom : s.bufLen.val < 64 := by
      have := s.bufLen.isLt
      have : s.bufLen.val ≠ 64 := fun hv => hFull (Fin.ext hv)
      omega
    have hBlocks : interiorBlocks (bytes.length + 1) = interiorBlocks bytes.length := by
      rw [interiorBlocks, Nat.add_sub_cancel]
      rw [interiorBlocks] at hLength ⊢
      omega
    rw [hBlocks, flushFull_notFull s hFull, collapse_of_idle (Absorbed.busy h)]
    exact Absorbed.storeByte h hRoom b

theorem TookIn.appendCollapsed {p : Params} {bytes : List Byte} {s : State} (h : TookIn p bytes s) (more : List Byte) :
    TookIn p (bytes ++ more) (appendCollapsed more s) := by
  induction more generalizing bytes s with
  | nil => rwa [List.append_nil]
  | cons b more ih =>
    rw [List.append_cons]
    exact ih (h.appendByte b)

/-! ### The final block -/

/-- FINAL's length check is one of the stream's length (rule R176). -/
theorem TookIn.unaligned_eq_false {p : Params} {bytes : List Byte} {s : State} (h : TookIn p bytes s)
    (hAligned : p.blockOnly = true → bytes.length % 64 = 0) : unaligned s = false := by
  rw [unaligned_eq_false_iff, Absorbed.cfg h]
  intro hBlock
  have hLength := Absorbed.length h
  have hMod := hAligned hBlock
  have hLt := s.bufLen.isLt
  have : s.bufLen.val = 0 ∨ s.bufLen.val = 64 := by omega
  exact this.imp Fin.ext Fin.ext

/-- The final block's compression will give the hash of the stream (rule R177, rule R180). -/
theorem TookIn.finalBlock_result {p : Params} {bytes : List Byte} {s : State} (h : TookIn p bytes s) :
    foldState (finalBlock s).hidden.hIn (finalBlock s).hidden.finishWork = streamDigest p.counterCarry64 bytes := by
  have hLength := Absorbed.length h
  have hMessage : loadMessage (padBuffer s).buf = streamMessage bytes (interiorBlocks bytes.length) := by
    refine loadMessage_eq_streamMessage fun a => ?_
    rw [padBuffer_read s (Absorbed.bufWf h)]
    split
    next hPast => rw [List.getD_eq_default _ _ (by omega)]
    next hValid => exact Absorbed.validBytes h a (by omega)
  have hLo : (finalBlock s).tLo = countLo bytes.length := by rw [finalBlock_tLo, Absorbed.tLo h, countLo_add, hLength]
  have hHi : (finalBlock s).tHi = countHi p.counterCarry64 bytes.length := by
    have hCfg := Absorbed.cfg h
    rw [finalBlock_tHi, counterNext_hi_of_counted (Absorbed.tLo h) (by rw [Absorbed.tHi h, hCfg]), hLength, hCfg]
  rw [finalBlock_finishWork, finalBlock_hidden, hMessage, hLo, hHi, Absorbed.chain h]
  rfl

/-! ### The host's waiting -/

theorem waitReady_of_idle (n : Nat) {s : State} (h : s.busy = false) : waitReady n s = s := by
  cases n with
  | zero => rfl
  | succ n => simp [waitReady, h]

/-- Progress leaves what the completion edge will leave, but for the free values (rule R245). -/
theorem collapse_progressCompress {s : State} (h : s.busy = true) (hid : Hidden) (n : Nat) :
    (collapse (progressCompress s)).withFree hid n = (collapse s).withFree hid n := by
  rw [collapse_of_busy h, collapse_of_busy (s := progressCompress s) h]
  apply State.ext
  case chain =>
    change foldState (progressCompress s).hidden.hIn (progressCompress s).hidden.finishWork = _
    rw [progressCompress_finishWork]
    simp [State.withFree]
  all_goals simp [State.withFree]

/-- Waiting for the cycles that remain leaves what collapsing the busy interval leaves, but for the free values (rule R248). -/
theorem waitReady_eq (n : Nat) (s : State) (hPos : 1 ≤ n) (hCyc : s.hidden.cyc ≤ n) :
    ∃ hid k, waitReady n s = (collapse s).withFree hid k := by
  induction n generalizing s with
  | zero => omega
  | succ n ih =>
    cases hb : s.busy with
    | false => exact ⟨s.hidden, s.freeCount, by rw [waitReady_of_idle _ hb, collapse_of_idle hb]; rfl⟩
    | true =>
      rw [waitReady, if_pos hb]
      rcases busyEdge_cases s with ⟨-, hEdge⟩ | ⟨hMore, hEdge⟩ <;> rw [hEdge]
      · exact ⟨(completeCompress s).hidden, (completeCompress s).freeCount, by
          rw [waitReady_of_idle n (completeCompress_busy s), collapse_of_busy hb]; rfl⟩
      · obtain ⟨hid, k, hWait⟩ := ih (progressCompress s) (by omega) (by simp; omega)
        exact ⟨hid, k, by rw [hWait, collapse_progressCompress hb]⟩

theorem waitAction_eq (s : State) : ∃ hid k, waitAction s = (collapse s).withFree hid k :=
  waitReady_eq _ s (Nat.le_max_left _ _) (Nat.le_max_right _ _)

@[simp] theorem waitAction_cfg (s : State) : (waitAction s).cfg = s.cfg := by
  obtain ⟨hid, k, hWait⟩ := waitAction_eq s
  rw [hWait]
  exact collapse_cfg s

@[simp] theorem waitAction_fsm (s : State) : (waitAction s).fsm = s.fsm := by
  obtain ⟨hid, k, hWait⟩ := waitAction_eq s
  rw [hWait]
  exact collapse_fsm s

@[simp] theorem waitAction_busy (s : State) : (waitAction s).busy = false := by
  obtain ⟨hid, k, hWait⟩ := waitAction_eq s
  rw [hWait]
  exact collapse_busy s

theorem waitAction_chain (s : State) : (waitAction s).chain = (collapse s).chain := by
  obtain ⟨hid, k, hWait⟩ := waitAction_eq s
  rw [hWait]
  rfl

theorem TookIn.waitAction {p : Params} {bytes : List Byte} {s : State} (h : TookIn p bytes (collapse s)) :
    TookIn p bytes (waitAction s) := by
  obtain ⟨hid, k, hWait⟩ := waitAction_eq s
  rw [hWait]
  exact Absorbed.withFree h hid k

/-! ### The host program -/

/-- A command that goes on, once the CORE is ready. -/
theorem runHost_command {i : Instr} {s t : State} (h : exec i (waitAction s) = .next t) (rest : List HostAction)
    (reads : List Word) : runHost (.command i :: rest) s reads = runHost rest t reads := by
  rw [runHost, h]

theorem runHost_map_read (regs : List ReadName) (s : State) (reads : List Word) :
    runHost (regs.map .read) s reads = .next (s, reads ++ regs.map fun reg => readPort s reg.addr) := by
  induction regs generalizing reads with
  | nil => simp [runHost]
  | cons reg regs ih => simp [runHost, ih]

/-- A command that feeds bytes takes them in, however long the CORE takes (rule R170, rule R245). -/
theorem TookIn.exec_of_isFeed {p : Params} {bytes : List Byte} {i : Instr} {s : State} (h : TookIn p bytes s)
    (hFeed : Instr.isFeed i = true) : ∃ t, exec i s = .next t ∧ TookIn p (bytes ++ Instr.passed i) (collapse t) := by
  have hRun := execCollapsed_of_isFeed hFeed (Absorbed.fsm h) (Absorbed.busy h)
  rw [execCollapsed] at hRun
  cases hExec : exec i s with
  | fault reason => rw [hExec] at hRun; cases hRun
  | refused reason => rw [hExec] at hRun; cases hRun
  | next t =>
    rw [hExec] at hRun
    have hCollapse : collapse t = Machine.succeed (Machine.appendCollapsed (Instr.passed i) s) := Host.Outcome.next.inj hRun
    refine ⟨t, rfl, ?_⟩
    rw [hCollapse]
    exact Absorbed.succeed (h.appendCollapsed (Instr.passed i))

/-- A host program's commands that feed bytes, from a CORE that may be busy. -/
theorem TookIn.runHost_of_isFeed {p : Params} {bytes : List Byte} {cmds : List Instr} {s : State}
    (h : TookIn p bytes (collapse s)) (hFeed : ∀ i ∈ cmds, Instr.isFeed i = true) (rest : List HostAction) (reads : List Word) :
    ∃ t, runHost (cmds.map .command ++ rest) s reads = runHost rest t reads ∧
      TookIn p (bytes ++ passedBytes cmds) (collapse t) := by
  induction cmds generalizing bytes s with
  | nil => exact ⟨s, rfl, by rwa [passedBytes, List.flatMap_nil, List.append_nil]⟩
  | cons i cmds ih =>
    obtain ⟨hHead, hRest⟩ := List.forall_mem_cons.mp hFeed
    obtain ⟨u, hExec, hTook⟩ := h.waitAction.exec_of_isFeed hHead
    obtain ⟨t, hRun, hEnd⟩ := ih hTook hRest
    refine ⟨t, ?_, ?_⟩
    · rw [List.map_cons, List.cons_append, runHost_command hExec, hRun]
    · rwa [passedBytes_cons, ← List.append_assoc]

/-- The eight reads of the digest give the chaining words once the final compression is done (rule R178). -/
theorem runHost_readDigest {s : State} (hFsm : s.fsm = .final) (hIdle : s.busy = false) (reads : List Word) :
    runHost readDigest s reads = .next (s, reads ++ s.chain.toList) := by
  obtain ⟨hDigest, -⟩ := readPortMap s
  have hRead (k : Fin 8) : readPort s (ReadName.digest k).addr = s.chain[k] :=
    (hDigest k).trans (if_pos ⟨hFsm, hIdle⟩)
  have hRegs : readDigest = ((List.finRange 8).map .digest).map .read := List.map_map.symm
  have hWords : (List.finRange 8).map (fun k => s.chain[k]) = s.chain.toList :=
    List.ext_getElem (by simp) (by simp)
  rw [hRegs, runHost_map_read, List.map_map, ← hWords]
  simp only [Function.comp_def, hRead]

/-- UPDATE_BYTES expands to commands that feed bytes (rule R86). -/
theorem isFeed_of_mem_updateBytes {bytes : List Byte} {i : Instr} (h : i ∈ updateBytes bytes) : Instr.isFeed i = true := by
  obtain ⟨-, -, hEach⟩ := updateBytesPassesItsBytes bytes
  obtain ⟨nb, data, rfl, hPos, hLe, -⟩ := hEach i h
  exact (wellFormed_update_iff nb data).mpr ⟨hPos, hLe⟩

/-- Settles O56: INIT starts the stream, UPDATE_BYTES feeds it, FINAL starts the compression that gives its hash, and WAIT lets
it complete. -/
theorem hashProgramReadsTheHash : Obligations.HashProgramReadsTheHash := by
  unfold Obligations.HashProgramReadsTheHash
  intro s bytes _ hAligned
  obtain ⟨hPassed, -⟩ := updateBytesPassesItsBytes bytes
  have hStart : TookIn s.cfg [] (collapse (initialized (waitAction s))) := by
    rw [collapse_of_idle (s := initialized (waitAction s)) (waitAction_busy s), ← waitAction_cfg s]
    exact absorbed_initialized (waitAction_busy s)
  obtain ⟨u, hFeed, hFed⟩ := hStart.runHost_of_isFeed (cmds := updateBytes bytes) (fun i hi => isFeed_of_mem_updateBytes hi)
    (.command .final :: .wait :: readDigest) []
  rw [List.nil_append, hPassed] at hFed
  have hTook := hFed.waitAction
  have hFinal := exec_final_of_accum (Absorbed.fsm hTook) (hTook.unaligned_eq_false hAligned)
  have hDigest := (waitAction_chain (succeed ((finalBlock (waitAction u)).setFsm .final))).trans hTook.finalBlock_result
  refine ⟨waitAction (succeed ((finalBlock (waitAction u)).setFsm .final)), ?_⟩
  calc runHost (hashProgram bytes) s []
      = runHost ((updateBytes bytes).map .command ++ .command .final :: .wait :: readDigest)
          (initialized (waitAction s)) [] := by
        rw [hashProgram, List.map_cons, List.map_append, List.cons_append, List.append_assoc]
        exact runHost_command (i := .init) (execInit_eq (waitAction s)) _ _
    _ = runHost (.command .final :: .wait :: readDigest) u [] := hFeed
    _ = runHost readDigest (waitAction (succeed ((finalBlock (waitAction u)).setFsm .final))) [] :=
        runHost_command hFinal _ _
    _ = _ := by
        rw [runHost_readDigest (waitAction_fsm _) (waitAction_busy _), hDigest]
        rfl

end Sys2Proof.Machine
end

section
/-! Proofs for spec/40_primitives.md: the rotation moves every bit (rule R103), and a load takes back the word that a store of
its bytes wrote to the buffer (rule R102). -/

namespace Sys2Proof.Machine

/-! ### The rotation -/

/-- The CORE's rotation is the library's. -/
theorem rotr_eq_rotateRight (x : Word) {n : Nat} (hn : n < 32) : rotr x n = x.rotateRight n := by
  rw [BitVec.rotateRight_def, Nat.mod_eq_of_lt hn, rotr]

/-- The bit law of rule R103: a bit moves down by `n`, or wraps around to the top. -/
theorem rotr_getLsbD (x : Word) {n k : Nat} (hn : n < 32) (hk : k < 32) :
    (rotr x n).getLsbD k = x.getLsbD ((k + n) % 32) := by
  rw [rotr_eq_rotateRight x hn, BitVec.getLsbD_rotateRight, Nat.mod_eq_of_lt hn]
  by_cases hLow : k < 32 - n
  · have hMod : (k + n) % 32 = n + k := by omega
    simp [hLow, hMod]
  · have hMod : (k + n) % 32 = k - (32 - n) := by omega
    simp [hLow, hk, hMod]

/-- A word whose bits are all equal is kept by every rotation. -/
theorem rotr_eq_self_of_bits_eq {x : Word} {b : Bool} (hBits : ∀ k < 32, x.getLsbD k = b) {n : Nat} (hn : n < 32) :
    rotr x n = x :=
  BitVec.eq_of_getLsbD_eq fun k hk => by
    rw [rotr_getLsbD x hn hk, hBits k hk, hBits _ (Nat.mod_lt _ (by decide))]

/-- A rotation as arithmetic: the low `n` bits go above the others, which move down by `n`. -/
theorem rotr_toNat (x : Word) {n : Nat} (hn : n < 32) :
    (rotr x n).toNat = x.toNat % 2 ^ n * 2 ^ (32 - n) + x.toNat / 2 ^ n := by
  have hPow : 2 ^ 32 = 2 ^ n * 2 ^ (32 - n) := by rw [← pow_add, Nat.add_sub_cancel' hn.le]
  have hDiv : x.toNat / 2 ^ n < 2 ^ (32 - n) := Nat.div_lt_of_lt_mul (hPow ▸ x.isLt)
  calc (rotr x n).toNat
      = x.toNat / 2 ^ n ||| x.toNat * 2 ^ (32 - n) % 2 ^ 32 := by
        rw [rotr_eq_rotateRight x hn, BitVec.toNat_rotateRight, Nat.mod_eq_of_lt hn, Nat.shiftRight_eq_div_pow,
          Nat.shiftLeft_eq]
    _ = (x.toNat % 2 ^ n) <<< (32 - n) ||| x.toNat / 2 ^ n := by
        rw [hPow, Nat.mul_mod_mul_right, Nat.lor_comm, Nat.shiftLeft_eq]
    _ = x.toNat % 2 ^ n * 2 ^ (32 - n) + x.toNat / 2 ^ n := by
        rw [← Nat.shiftLeft_add_eq_or_of_lt hDiv, Nat.shiftLeft_eq]

/-- Settles O24: the bit law gives the two kept words, and the arithmetic form the swap of the half-words. -/
theorem rotationMovesEveryBit : Obligations.RotationMovesEveryBit := by
  unfold Obligations.RotationMovesEveryBit
  intro x n _ hn
  have hZero : rotr 0 n = 0 := rotr_eq_self_of_bits_eq (b := false) (by decide) hn
  have hOnes : rotr 0xFFFFFFFF n = 0xFFFFFFFF := rotr_eq_self_of_bits_eq (b := true) (by decide) hn
  exact ⟨rfl, fun _ => rotr_getLsbD x hn, hZero, hOnes, rotr_toNat x (by decide), by decide⟩

/-! ### Load after store -/

/-- A little-endian word is put together again from its own four bytes (rule R102). -/
theorem word32le_extractLsb' (w : Word) :
    word32le (w.extractLsb' 0 8) (w.extractLsb' 8 8) (w.extractLsb' 16 8) (w.extractLsb' 24 8) = w := by
  apply BitVec.eq_of_toNat_eq
  have hLt := w.isLt
  simp only [word32le_toNat, BitVec.extractLsb'_toNat, Nat.shiftRight_eq_div_pow]
  omega

section
variable {mem : Memory} (hWf : Memory.wf mem = true) (w : Word) {a : Nat} (hLen : a + (store32le w).length ≤ 64)
include hWf

/-- Address `a + k` holds byte `k` of a word stored at `a` (rule R101). -/
theorem read_writeBytes_store32le {k : Nat} (hk : k < 4) (hAddr : a + k < 64) :
    Memory.read (Memory.writeBytes mem a (store32le w) hLen) ⟨a + k, hAddr⟩ = w.extractLsb' (8 * k) 8 := by
  have hInside : a ≤ a + k ∧ a + k < a + (store32le w).length := ⟨Nat.le_add_right a k, Nat.add_lt_add_left hk a⟩
  rw [Memory.read_writeBytes _ _ _ _ _ hWf, if_pos hInside, Nat.add_sub_cancel_left, List.getD_eq_getElem?_getD,
    store32le_getElem? w hk, Option.getD_some]

/-- The load reads the four bytes that the store wrote (rule R102). -/
theorem load32le_writeBytes_store32le (h4 : a + 4 ≤ 64) :
    load32le (Memory.writeBytes mem a (store32le w) hLen) a h4 = w := by
  have hByte {k : Nat} (hk : k < 4) := read_writeBytes_store32le hWf w hLen hk (by omega)
  have hFirst : Memory.read (Memory.writeBytes mem a (store32le w) hLen) ⟨a, by omega⟩ = w.extractLsb' 0 8 :=
    hByte (k := 0) (by decide)
  rw [load32le, hFirst, hByte (k := 1) (by decide), hByte (k := 2) (by decide), hByte (k := 3) (by decide)]
  exact word32le_extractLsb' w

end

/-- Settles O25: the load reads the bytes just written, and the store writes at no other address (rule R53). -/
theorem loadAfterStoreGivesTheWord : Obligations.LoadAfterStoreGivesTheWord := by
  unfold Obligations.LoadAfterStoreGivesTheWord
  intro mem w a h4 hLen hWf stored
  refine ⟨load32le_writeBytes_store32le hWf w hLen h4, Memory.wf_writeBytes _ _ _ _ hWf, fun c hOutside => ?_⟩
  rw [Memory.read_writeBytes _ _ _ _ _ hWf, store32le_length, if_neg (by omega)]

end Sys2Proof.Machine
end

section
/-! Proofs for spec/41_mixing_g.md: a step of G writes the four words of its quadruple alone (rule R121), so that the steps of one
phase commute (rule R131); the rounds run the eighty steps in the flat order (rule R130); the tables (rules R124, R126, R127). -/

namespace Sys2Proof.Machine

/-! ### G on one quadruple -/

/-- The four positions that G on a quadruple reads and writes. -/
def QuadIndex.positions (q : QuadIndex) : List (Fin 16) := [q.a, q.b, q.c, q.d]

theorem QuadIndex.mem_positions {q : QuadIndex} {k : Fin 16} :
    k ∈ q.positions ↔ k = q.a ∨ k = q.b ∨ k = q.c ∨ k = q.d := by
  simp [positions]

theorem quadruple_positions_nodup : ∀ i : Fin 8, (quadruple i).positions.Nodup := by decide

/-- The four words of the working vector that G reads. -/
def QuadIndex.words (q : QuadIndex) (v : Vector Word 16) : Quad := { a := v[q.a], b := v[q.b], c := v[q.c], d := v[q.d] }

/-- The word at `k` after G on a quadruple: of the four writes, the last one to `k` counts. -/
theorem mixAt_getElem (v : Vector Word 16) (q : QuadIndex) (m1 m2 : Word) (k : Fin 16) :
    (mixAt v q m1 m2)[k] =
      if k = q.d then (mixG (q.words v) m1 m2).d else if k = q.c then (mixG (q.words v) m1 m2).c
      else if k = q.b then (mixG (q.words v) m1 m2).b else if k = q.a then (mixG (q.words v) m1 m2).a else v[k] := by
  simp only [mixAt, QuadIndex.words, Fin.getElem_fin, Vector.getElem_set, Fin.val_inj, eq_comm (b := k)]

/-- With distinct positions the order of the four writes does not matter. -/
theorem mixAt_getElem_of_nodup (v : Vector Word 16) {q : QuadIndex} (hq : q.positions.Nodup) (m1 m2 : Word) (k : Fin 16) :
    (mixAt v q m1 m2)[k] =
      if k = q.a then (mixG (q.words v) m1 m2).a else if k = q.b then (mixG (q.words v) m1 m2).b
      else if k = q.c then (mixG (q.words v) m1 m2).c else if k = q.d then (mixG (q.words v) m1 m2).d else v[k] := by
  rw [mixAt_getElem]
  simp only [QuadIndex.positions, List.nodup_cons, List.mem_cons, List.not_mem_nil, or_false, not_or] at hq
  obtain ⟨⟨hab, hac, had⟩, ⟨hbc, hbd⟩, hcd, -⟩ := hq
  by_cases ha : k = q.a
  · simp [ha, hab, hac, had]
  by_cases hb : k = q.b
  · simp [hb, hbc, hbd, Ne.symm hab]
  by_cases hc : k = q.c
  · simp [hc, hcd, Ne.symm hac, Ne.symm hbc]
  · simp [ha, hb, hc]

/-- Settles O28: the four positions of a step are distinct, so each keeps the result written to it. -/
theorem mixingWritesOnlyItsQuadruple : Obligations.MixingWritesOnlyItsQuadruple := by
  unfold Obligations.MixingWritesOnlyItsQuadruple
  intro v i m1 m2 k
  have hq := quadruple_positions_nodup i
  exact ⟨hq, mixAt_getElem_of_nodup v hq m1 m2 k⟩

/-! ### Steps of one phase -/

theorem mixAt_getElem_of_notMem (v : Vector Word 16) {q : QuadIndex} (m1 m2 : Word) {k : Fin 16} (hk : k ∉ q.positions) :
    (mixAt v q m1 m2)[k] = v[k] := by
  obtain ⟨ha, hb, hc, hd⟩ : k ≠ q.a ∧ k ≠ q.b ∧ k ≠ q.c ∧ k ≠ q.d := by
    simpa only [QuadIndex.mem_positions, not_or] using hk
  rw [mixAt_getElem, if_neg hd, if_neg hc, if_neg hb, if_neg ha]

/-- The word at `k` after G depends on the word at `k` before it and on the four words that G reads. -/
theorem mixAt_getElem_congr {v w : Vector Word 16} {q : QuadIndex} (m1 m2 : Word) {k : Fin 16}
    (hWords : q.words v = q.words w) (hk : v[k] = w[k]) : (mixAt v q m1 m2)[k] = (mixAt w q m1 m2)[k] := by
  rw [mixAt_getElem, mixAt_getElem, hWords, hk]

section
variable {p q : QuadIndex} (hDisjoint : p.positions.Disjoint q.positions)
include hDisjoint

/-- G on one quadruple leaves the words that G on a disjoint one reads. -/
theorem words_mixAt_of_disjoint (v : Vector Word 16) (m1 m2 : Word) : p.words (mixAt v q m1 m2) = p.words v := by
  have hKept {k : Fin 16} (hk : k ∈ p.positions) : (mixAt v q m1 m2)[k] = v[k] :=
    mixAt_getElem_of_notMem v m1 m2 (hDisjoint hk)
  simp only [QuadIndex.words, hKept (QuadIndex.mem_positions.mpr _), true_or, or_true]

/-- Outside the positions of `q`, both orders give what G on `p` alone gives. -/
theorem mixAt_comm_getElem_of_notMem (v : Vector Word 16) (m1 m2 n1 n2 : Word) {k : Fin 16} (hk : k ∉ q.positions) :
    (mixAt (mixAt v p m1 m2) q n1 n2)[k] = (mixAt (mixAt v q n1 n2) p m1 m2)[k] :=
  calc (mixAt (mixAt v p m1 m2) q n1 n2)[k]
      = (mixAt v p m1 m2)[k] := mixAt_getElem_of_notMem _ _ _ hk
    _ = (mixAt (mixAt v q n1 n2) p m1 m2)[k] :=
        mixAt_getElem_congr m1 m2 (words_mixAt_of_disjoint hDisjoint v n1 n2).symm (mixAt_getElem_of_notMem v n1 n2 hk).symm

theorem mixAt_comm_of_disjoint (v : Vector Word 16) (m1 m2 n1 n2 : Word) :
    mixAt (mixAt v p m1 m2) q n1 n2 = mixAt (mixAt v q n1 n2) p m1 m2 := by
  ext k hk : 1
  by_cases hMem : (⟨k, hk⟩ : Fin 16) ∈ q.positions
  · exact (mixAt_comm_getElem_of_notMem hDisjoint.symm v n1 n2 m1 m2 (hDisjoint.symm hMem)).symm
  · exact mixAt_comm_getElem_of_notMem hDisjoint v m1 m2 n1 n2 hMem

end

/-- Two steps of one phase share no position (rule R124). -/
theorem quadruple_positions_disjoint : ∀ i j : Fin 8, i ≠ j → i.val / 4 = j.val / 4 →
    (quadruple i).positions.Disjoint (quadruple j).positions := by
  unfold List.Disjoint
  decide

/-- Settles O30: the steps of one phase work on disjoint quadruples. -/
theorem stepsOfOnePhaseCommute : Obligations.StepsOfOnePhaseCommute := by
  unfold Obligations.StepsOfOnePhaseCommute
  intro m v r i j hNe hPhase
  exact mixAt_comm_of_disjoint (quadruple_positions_disjoint i j hNe hPhase) v _ _ _ _

/-! ### The flat order of the steps -/

/-- Step number `k` of the pipeline (rule R130): step `k mod 8` of round `k div 8`. -/
def flatStep (m w : Vector Word 16) (k : Nat) : Vector Word 16 := gStep m w (Fin.ofNat 10 (k / 8)) (Fin.ofNat 8 (k % 8))

/-- The sequencer's step is the one that its position numbers. -/
theorem Hidden.advance_v (h : Hidden) : h.advance.v = flatStep h.m h.v h.pos := by
  have hRnd : Fin.ofNat 10 (h.pos / 8) = h.rnd := by
    ext; simp only [Fin.val_ofNat, Hidden.pos]; omega
  have hStp : Fin.ofNat 8 (h.pos % 8) = h.stp := by
    ext; simp only [Fin.val_ofNat, Hidden.pos]; omega
  rw [flatStep, hRnd, hStp, Hidden.advance]

/-- The sequencer, from the start of the schedule, runs the steps in the order of their numbers. -/
theorem Hidden.runSteps_v_eq_foldl (h : Hidden) (hStart : h.pos = 0) (n : Nat) (hn : n ≤ 80) :
    (Hidden.runSteps n h).v = (List.range n).foldl (flatStep h.m) h.v := by
  induction n with
  | zero => rfl
  | succ n ih =>
    have hPos : (Hidden.runSteps n h).pos = n := by
      rw [Hidden.pos_runSteps n h (by omega), hStart, Nat.zero_add]
    calc (Hidden.runSteps (n + 1) h).v
        = (Hidden.runSteps n h).advance.v := by rw [Hidden.runSteps_add]; rfl
      _ = flatStep h.m ((List.range n).foldl (flatStep h.m) h.v) n := by
          rw [Hidden.advance_v, Hidden.runSteps_m, hPos, ih (by omega)]
      _ = (List.range (n + 1)).foldl (flatStep h.m) h.v := by
          rw [List.range_succ, List.foldl_append, List.foldl_cons, List.foldl_nil]

/-- The sequencer at the start of a schedule on given words; the latched chaining value and the cycle count play no part. -/
def Hidden.atStart (m v : Vector Word 16) : Hidden := { hIn := iv, m := m, v := v, rnd := 0, stp := 0, cyc := 1 }

/-- Settles O31: the sequencer's eighty steps from the start give the pipeline, and are the steps in their flat order. -/
theorem pipelineIsEightyStepsInOrder : Obligations.PipelineIsEightyStepsInOrder := by
  unfold Obligations.PipelineIsEightyStepsInOrder
  intro m v
  calc pipeline m v
      = (Hidden.atStart m v).finishWork := (Hidden.finishWork_start (Hidden.atStart m v) rfl rfl).symm
    _ = (List.range 80).foldl (flatStep m) v := Hidden.runSteps_v_eq_foldl (Hidden.atStart m v) rfl 80 (by decide)

/-! ### The tables -/

/-- Every message word is used in every round (rule R126). -/
theorem sigma_surjective : ∀ (r : Fin 10) (j : Fin 16), ∃ k : Fin 16, (sigma r)[k] = j := by decide

/-- A packed byte holds the two indices of its step (rule R127). -/
theorem sigmaPacked_toNat : ∀ (r : Fin 10) (i : Fin 8),
    (sigmaPacked r)[i].toNat = 16 * (firstIndex r i).val + (secondIndex r i).val := by decide

/-- Settles O29: the formula's eight quadruples are the table's, and the two schedules are as `sigma_surjective` and
`sigmaPacked_toNat` say. -/
theorem scheduleTables : Obligations.ScheduleTables := by
  unfold Obligations.ScheduleTables
  exact ⟨by decide, sigma_surjective, sigmaPacked_toNat⟩

end Sys2Proof.Machine
end

section
/-! Proofs for spec/42_compression.md: the seeded chaining value (rule R164), the working vector at compression start (rule
R142), and the edges of a compression up to its completion (rule R245). -/

namespace Sys2Proof.Machine

/-! ### The seeded state and the working vector -/

/-- The IV with its first word XORed with the parameter word (rule R140, rule R147). -/
theorem initChain_eq : initChain =
    #v[0x6B08E647, 0xBB67AE85, 0x3C6EF372, 0xA54FF53A, 0x510E527F, 0x9B05688C, 0x1F83D9AB, 0x5BE0CD19] := by decide

/-- Settles O13: the state that INIT leaves, `initialized`, field by field. -/
theorem initStartsAComputation : Obligations.InitStartsAComputation := by
  unfold Obligations.InitStartsAComputation
  intro s
  exact ⟨initialized s, execInit_eq s, initChain_eq, rfl, rfl, rfl, rfl, fun _ => rfl, rfl, rfl, rfl, rfl, rfl, rfl, rfl, rfl, rfl⟩

/-- A set flag complements the word it is XORed into; a clear one leaves it (rule R13). -/
theorem xor32_flagWord {w complement : Word} (h : ~~~w = complement) (f : Bool) :
    xor32 w (flagWord f) = if f then complement else w := by
  subst h
  cases f with
  | false => exact BitVec.xor_zero
  | true => exact BitVec.xor_allOnes

theorem initWork_getElem_low (chain : Vector Word 8) (lo hi : Word) (f0 f1 : Bool) (k : Fin 8) :
    (initWork chain lo hi f0 f1)[k.val] = chain[k] := by
  fin_cases k <;> rfl

theorem initWork_getElem_iv (chain : Vector Word 8) (lo hi : Word) (f0 f1 : Bool) (k : Fin 4) :
    (initWork chain lo hi f0 f1)[k.val + 8] = iv[k.val] := by
  fin_cases k <;> rfl

/-- Settles O27: the two halves word by word, and in words 14 and 15 a set flag complements the IV word. -/
theorem workingVectorSetup : Obligations.WorkingVectorSetup := by
  unfold Obligations.WorkingVectorSetup
  intro chain lo hi f0 f1
  exact ⟨initWork_getElem_low chain lo hi f0 f1, initWork_getElem_iv chain lo hi f0 f1, rfl, rfl,
    xor32_flagWord (w := iv[6]) (by decide) f0, xor32_flagWord (w := iv[7]) (by decide) f1⟩

/-! ### The free values -/

@[simp] theorem State.withFree_cfg (hid : Hidden) (n : Nat) (s : State) : (s.withFree hid n).cfg = s.cfg := rfl
@[simp] theorem State.withFree_fsm (hid : Hidden) (n : Nat) (s : State) : (s.withFree hid n).fsm = s.fsm := rfl
@[simp] theorem State.withFree_chain (hid : Hidden) (n : Nat) (s : State) : (s.withFree hid n).chain = s.chain := rfl
@[simp] theorem State.withFree_tLo (hid : Hidden) (n : Nat) (s : State) : (s.withFree hid n).tLo = s.tLo := rfl
@[simp] theorem State.withFree_tHi (hid : Hidden) (n : Nat) (s : State) : (s.withFree hid n).tHi = s.tHi := rfl
@[simp] theorem State.withFree_f0 (hid : Hidden) (n : Nat) (s : State) : (s.withFree hid n).f0 = s.f0 := rfl
@[simp] theorem State.withFree_f1 (hid : Hidden) (n : Nat) (s : State) : (s.withFree hid n).f1 = s.f1 := rfl
@[simp] theorem State.withFree_buf (hid : Hidden) (n : Nat) (s : State) : (s.withFree hid n).buf = s.buf := rfl
@[simp] theorem State.withFree_bufLen (hid : Hidden) (n : Nat) (s : State) : (s.withFree hid n).bufLen = s.bufLen := rfl
@[simp] theorem State.withFree_errc (hid : Hidden) (n : Nat) (s : State) : (s.withFree hid n).errc = s.errc := rfl
@[simp] theorem State.withFree_errs (hid : Hidden) (n : Nat) (s : State) : (s.withFree hid n).errs = s.errs := rfl
@[simp] theorem State.withFree_busy (hid : Hidden) (n : Nat) (s : State) : (s.withFree hid n).busy = s.busy := rfl
@[simp] theorem State.withFree_hidden (hid : Hidden) (n : Nat) (s : State) : (s.withFree hid n).hidden = hid := rfl

/-- Progress writes nothing but free values. -/
theorem withFree_progressCompress (hid : Hidden) (n : Nat) (s : State) :
    (progressCompress s).withFree hid n = s.withFree hid n := by
  simp [State.withFree]

/-! ### The edges of a compression -/

/-- `rst` is low at the next `n` edges. -/
def RstLow (n : Nat) (s : State) : Prop := ∀ k < n, s.host.rstWire.getD k false = false

theorem RstLow.rstNow {n : Nat} {s : State} (h : RstLow (n + 1) s) : rstNow s = false := by
  rw [Machine.rstNow, List.headD_eq_head?_getD, List.head?_eq_getElem?, ← List.getD_eq_getElem?_getD]
  exact h 0 n.succ_pos

/-- An edge takes the first level off the wire (log 8). -/
theorem RstLow.of_progress {n : Nat} {s : State} (h : RstLow (n + 1) s) :
    RstLow n (progressCompress (clockHost false s)) := by
  intro k hk
  have hNext := h (k + 1) (Nat.succ_lt_succ hk)
  change s.host.rstWire.tail.getD k false = false
  rwa [List.getD_eq_getElem?_getD, List.getElem?_tail, ← List.getD_eq_getElem?_getD]

/-- A busy edge with more than one cycle left, as the first of several. -/
theorem run_succ_of_progress {n : Nat} {s : State} (hBusy : s.busy = true) (hRst : RstLow (n + 1) s)
    (hCyc : 1 < s.hidden.cyc) (k : Nat) :
    Host.Core.run Sys2Proof.core (k + 1) s = Host.Core.run Sys2Proof.core k (progressCompress (clockHost false s)) := by
  have hEdge : busyEdge (clockHost false s) = progressCompress (clockHost false s) := if_neg (Nat.not_le.mpr hCyc)
  exact run_succ_of_step (M := Sys2Proof.core) ((step_of_busy hRst.rstNow hBusy).trans (congrArg _ hEdge)) k

/-- Before completion the edges change nothing but the hidden fields, where each takes one cycle off, the free-value counter and
the host's side (rule R245). -/
theorem run_before_completion (k : Nat) {s : State} (hBusy : s.busy = true) (hRst : RstLow k s) (hk : k < s.hidden.cyc) :
    ∃ hid n host, Host.Core.run Sys2Proof.core k s = .next ((s.withFree hid n).setHost host) ∧
      hid.cyc = s.hidden.cyc - k := by
  induction k generalizing s with
  | zero => exact ⟨s.hidden, s.freeCount, s.host, rfl, rfl⟩
  | succ k ih =>
    have hNext : (progressCompress (clockHost false s)).busy = true := hBusy
    have hLess : (progressCompress (clockHost false s)).hidden.cyc = s.hidden.cyc - 1 := rfl
    obtain ⟨hid, n, host, hRun, hCyc⟩ := ih hNext hRst.of_progress (by omega)
    rw [run_succ_of_progress hBusy hRst (by omega), hRun, withFree_progressCompress]
    exact ⟨hid, n, host, rfl, by omega⟩

/-- The edge that takes the last cycle leaves what collapsing the busy interval leaves, but for the hidden fields, the
free-value counter and the host's side (rule R245, rule R248). -/
theorem run_to_completion (k : Nat) {s : State} (hBusy : s.busy = true) (hRst : RstLow (k + 1) s) (hk : s.hidden.cyc = k + 1) :
    ∃ hid n host, Host.Core.run Sys2Proof.core (k + 1) s = .next (((collapse s).withFree hid n).setHost host) := by
  induction k generalizing s with
  | zero =>
    have hEdge : busyEdge (clockHost false s) = completeCompress (clockHost false s) := if_pos hk.le
    have hStep := (step_of_busy hRst.rstNow hBusy).trans (congrArg _ hEdge)
    rw [collapse_of_busy hBusy]
    exact ⟨_, _, _, run_succ_of_step (M := Sys2Proof.core) hStep 0⟩
  | succ k ih =>
    have hNext : (progressCompress (clockHost false s)).busy = true := hBusy
    have hLess : (progressCompress (clockHost false s)).hidden.cyc = s.hidden.cyc - 1 := rfl
    obtain ⟨hid, n, host, hRun⟩ := ih hNext hRst.of_progress (by omega)
    rw [run_succ_of_progress hBusy hRst (by omega), hRun, collapse_progressCompress (s := clockHost false s) hBusy,
      collapse_of_busy hBusy, collapse_of_busy (s := clockHost false s) hBusy]
    exact ⟨hid, n, host, rfl⟩

/-- Settles O36: every edge before the last is progress, and the last one is the completion edge. -/
theorem compressionCompletesOnTime : Obligations.CompressionCompletesOnTime := by
  unfold Obligations.CompressionCompletesOnTime
  intro s hInv hBusy hRst k hk
  rcases Nat.lt_or_eq_of_le hk with hBefore | rfl
  · obtain ⟨hid, n, host, hRun, hCyc⟩ := run_before_completion k hBusy (fun j hj => hRst j (hj.trans hBefore)) hBefore
    exact ⟨_, hRun, by simp [hBusy, hCyc, hBefore.ne]⟩
  · obtain ⟨c, hc⟩ : ∃ c, s.hidden.cyc = c + 1 := Nat.exists_eq_add_of_le' (hInv.busyCycles hBusy).1
    obtain ⟨hid, n, host, hRun⟩ := run_to_completion c hBusy (fun j hj => hRst j (by omega)) hc
    rw [collapse_of_busy hBusy, ← hc] at hRun
    exact ⟨_, hRun, by simp [hInv.busyChain hBusy, hInv.busyWork hBusy, compressWords]⟩

end Sys2Proof.Machine
end

section
/-! Proofs for spec/43_commands.md, first part: what one accepted command does in each state (rule R161, rule R176, rule R179),
and what a failing one leaves (rule R203). -/

namespace Sys2Proof.Machine

/-! ### A misuse, by `STRICT` -/

theorem misuse_of_strict {s : State} (hStrict : s.cfg.strict = true) (code : ErrCode) (reason : Fault) :
    misuse code reason s = .next (raiseError code s) :=
  if_pos hStrict

theorem misuse_of_not_strict {s : State} (hStrict : s.cfg.strict = false) (code : ErrCode) (reason : Fault) :
    misuse code reason s = .fault reason :=
  if_neg (Bool.eq_false_iff.mp hStrict)

/-! ### The branches of UPDATE and FINAL that are misuses -/

theorem exec_update_of_not_accum {s : State} (nb : Nat) (data : Word) (hFsm : s.fsm ≠ .accum) :
    exec (.update nb data) s = misuse .misusedState .updateOutsideAccum s :=
  if_pos hFsm

theorem exec_final_of_not_accum {s : State} (hFsm : s.fsm ≠ .accum) :
    exec .final s = misuse .misusedState .finalOutsideAccum s :=
  if_pos hFsm

theorem exec_final_of_unaligned {s : State} (hFsm : s.fsm = .accum) (hUnaligned : unaligned s = true) :
    exec .final s = misuse .invalidArgument .unalignedLength s := by
  change execFinal s = _
  rw [execFinal, if_neg (not_not.mpr hFsm), if_pos hUnaligned]

/-! ### Single commands -/

theorem exec_nop (s : State) : exec .nop s = .next (succeed s) := rfl

/-- Settles O12: `errs` is written with itself, and the word 0 decodes to NOP whatever DATA is. -/
theorem nopClearsTheResultCode : Obligations.NopClearsTheResultCode := by
  unfold Obligations.NopClearsTheResultCode
  exact fun s data => ⟨exec_nop s, (acceptCommand_of_instr rfl s).trans (exec_nop s)⟩

/-- Settles O18: FINAL's length check fails, which is a misuse. -/
theorem unalignedFinalInBlockOnlyMode : Obligations.UnalignedFinalInBlockOnlyMode := by
  unfold Obligations.UnalignedFinalInBlockOnlyMode
  intro s hFsm hBlock hNotEmpty hNotFull
  rw [exec_final_of_unaligned hFsm ((unaligned_iff s).mpr ⟨hBlock, hNotEmpty, hNotFull⟩)]
  exact ⟨fun hStrict => misuse_of_strict hStrict _ _, fun hStrict => misuse_of_not_strict hStrict _ _⟩

/-! ### The transition table -/

theorem leadsTo_next (t : State) : LeadsTo (.next t) t.fsm t.errc := ⟨t, rfl, rfl, rfl⟩

/-- A checked misuse stays in its state with its code (rule R203). -/
theorem leadsTo_misuse {s : State} (hStrict : s.cfg.strict = true) (code : ErrCode) (reason : Fault) :
    LeadsTo (misuse code reason s) s.fsm code := by
  rw [misuse_of_strict hStrict]
  exact leadsTo_next (raiseError code s)

theorem leadsTo_update {s : State} (nb : Nat) (data : Word) (hFsm : s.fsm = .accum) :
    LeadsTo (exec (.update nb data) s) .accum .ok := by
  rw [exec_update_of_accum nb data hFsm]
  exact ⟨_, rfl, (appendBytes_same _ s).fsm.trans hFsm, rfl⟩

theorem leadsTo_illegal {w : Word} (hIllegal : legal w = false) (data : Word) (s : State) :
    LeadsTo (acceptCommand w data s) s.fsm .illegalCommand := by
  rw [acceptCommand_of_not_legal hIllegal]
  exact leadsTo_next (raiseError .illegalCommand s)

/-- FINAL's three cells in ACCUM: by its length check, and where that fails by `STRICT`. -/
theorem leadsTo_final_of_accum {s : State} (hFsm : s.fsm = .accum) :
    (unaligned s = false → LeadsTo (exec .final s) .final .ok) ∧
      (unaligned s = true → s.cfg.strict = true → LeadsTo (exec .final s) .accum .invalidArgument) ∧
      (unaligned s = true → s.cfg.strict = false → exec .final s = .fault .unalignedLength) := by
  refine ⟨fun hAligned => ?_, fun hUnaligned hStrict => ?_, fun hUnaligned hStrict => ?_⟩
  · rw [exec_final_of_accum hFsm hAligned]
    exact leadsTo_next _
  · rw [exec_final_of_unaligned hFsm hUnaligned, ← hFsm]
    exact leadsTo_misuse hStrict _ _
  · rw [exec_final_of_unaligned hFsm hUnaligned, misuse_of_not_strict hStrict]

/-- Settles O19, cell by cell: by the state, FINAL's length check and `STRICT`. -/
theorem transitionTable : Obligations.TransitionTable := by
  unfold Obligations.TransitionTable
  intro s nb data w
  refine ⟨leadsTo_next (succeed s), leadsTo_next (initialized s), fun hIllegal => leadsTo_illegal hIllegal data s,
    leadsTo_update nb data, fun hFsm => ?_, fun hFsm hStrict => ?_, fun hFsm hStrict => ?_⟩
  · dsimp only
    rw [← unaligned_eq_false_iff, Bool.not_eq_false]
    exact leadsTo_final_of_accum hFsm
  · rw [exec_update_of_not_accum nb data hFsm, exec_final_of_not_accum hFsm]
    exact ⟨leadsTo_misuse hStrict _ _, leadsTo_misuse hStrict _ _⟩
  · rw [exec_update_of_not_accum nb data hFsm, exec_final_of_not_accum hFsm]
    exact ⟨misuse_of_not_strict hStrict _ _, misuse_of_not_strict hStrict _ _⟩

/-! ### A command that fails -/

/-- Every next state of an accepted word holds OK, or is the state before with an error raised (rule R32, rule R203). -/
theorem acceptCommand_ok_or_raised {w data : Word} {s t : State} (h : acceptCommand w data s = .next t) :
    t.errc = .ok ∨ t = raiseError t.errc s := by
  cases hLegal : legal w with
  | false =>
    rw [acceptCommand_of_not_legal hLegal] at h
    cases h
    exact .inr rfl
  | true =>
    obtain ⟨i, hDec⟩ := (decode_instr_iff_legal w data).mpr hLegal
    rw [acceptCommand_of_instr hDec] at h
    rcases exec_cases i s t h with
      ⟨-, rfl⟩ | ⟨-, hInit⟩ | ⟨nb, bytes, -, -, rfl⟩ | ⟨-, -, -, rfl⟩ | ⟨-, code, -, rfl, -⟩
    · exact .inl rfl
    · cases hInit
      exact .inl rfl
    · exact .inl rfl
    · exact .inl rfl
    · exact .inr rfl

/-- Settles O20: a next state that does not hold OK is an error raised. -/
theorem failedCommandChangesOnlyTheErrorFields : Obligations.FailedCommandChangesOnlyTheErrorFields := by
  unfold Obligations.FailedCommandChangesOnlyTheErrorFields
  exact fun w data s t h hFails => (acceptCommand_ok_or_raised h).resolve_left hFails

end Sys2Proof.Machine
end

section
/-! Proofs for spec/43_commands.md, second part: what INIT, any commands that feed bytes, and FINAL leave of the stream of these
bytes (rule R174, rule R176, rule R180). -/

namespace Sys2Proof.Machine

/-! ### INIT and the commands that feed bytes -/

/-- What the CORE holds of a stream does not speak of the result code. -/
theorem TookIn.of_succeed {p : Params} {bytes : List Byte} {s : State} (h : TookIn p bytes (succeed s)) : TookIn p bytes s :=
  { h with }

theorem execCollapsed_init {s : State} (hIdle : s.busy = false) : execCollapsed .init s = .next (initialized s) :=
  congrArg Host.Outcome.next (collapse_of_idle (s := initialized s) hIdle)

/-- INIT and commands that feed bytes run to the end and take the stream in (rule R174). -/
theorem execAll_init_of_isFeed {s : State} {cmds : List Instr} (hIdle : s.busy = false)
    (hFeed : ∀ i ∈ cmds, Instr.isFeed i = true) :
    ∃ t, execAll (.init :: cmds) s = .next t ∧ TookIn s.cfg (passedBytes cmds) t := by
  have hStart : TookIn s.cfg [] (initialized s) := absorbed_initialized hIdle
  obtain ⟨t, hRun, hEnd⟩ := execAll_of_isFeed (s := initialized s) hFeed rfl hIdle
  refine ⟨t, by rw [execAll, execCollapsed_init hIdle]; exact hRun, TookIn.of_succeed ?_⟩
  rw [hEnd]
  exact Absorbed.succeed (hStart.appendCollapsed (passedBytes cmds))

/-- Settles O52: the fields of what the CORE holds of the stream; the last block is the bytes after the interior ones. -/
theorem streamLeavesItsLastBlockInTheBuffer : Obligations.StreamLeavesItsLastBlockInTheBuffer := by
  unfold Obligations.StreamLeavesItsLastBlockInTheBuffer
  intro s cmds hIdle hFeed
  obtain ⟨t, hRun, hTook⟩ := execAll_init_of_isFeed hIdle hFeed
  have hLength := Absorbed.length hTook
  refine ⟨t, hRun, Absorbed.fsm hTook, Absorbed.busy hTook, Absorbed.chain hTook, Absorbed.tLo hTook, Absorbed.tHi hTook,
    by omega, fun hSome => ?_, Absorbed.validBytes hTook⟩
  have hPos : 1 ≤ (passedBytes cmds).length := List.length_pos_iff.mpr hSome
  rw [interiorBlocks] at hLength
  omega

/-! ### FINAL's length check -/

/-- The buffer is empty or full exactly for a whole number of blocks (rule R176). -/
theorem TookIn.bufLen_zero_or_full_iff {p : Params} {bytes : List Byte} {s : State} (h : TookIn p bytes s) :
    s.bufLen = 0 ∨ s.bufLen = 64 ↔ bytes.length % 64 = 0 := by
  have hLength := Absorbed.length h
  have hLt := s.bufLen.isLt
  omega

/-- Settles O54: the run is the one that takes the stream in, and the check at `buf_len` is the one of the total. -/
theorem blockOnlyCheckIsExactForTheTotal : Obligations.BlockOnlyCheckIsExactForTheTotal := by
  unfold Obligations.BlockOnlyCheckIsExactForTheTotal
  intro s t cmds hIdle hFeed hReach hBlock
  obtain ⟨u, hRun, hTook⟩ := execAll_init_of_isFeed hIdle hFeed
  obtain rfl : t = u := Host.Outcome.next.inj (hReach.symm.trans hRun)
  have hTotal := hTook.bufLen_zero_or_full_iff
  refine ⟨hTotal, ?_⟩
  rw [unaligned_iff, Absorbed.cfg hTook, and_iff_right hBlock, ← not_or, hTotal]

/-! ### FINAL -/

/-- The final block counts the stream to its end (rule R177). -/
theorem TookIn.finalBlock_counter {p : Params} {bytes : List Byte} {s : State} (h : TookIn p bytes s) :
    (finalBlock s).tLo = countLo bytes.length ∧ (finalBlock s).tHi = countHi p.counterCarry64 bytes.length := by
  have hLength := Absorbed.length h
  obtain rfl := Absorbed.cfg h
  rw [finalBlock_tLo, finalBlock_tHi, counterNext_hi_of_counted (Absorbed.tLo h) (Absorbed.tHi h), Absorbed.tLo h, countLo_add,
    hLength]
  exact ⟨rfl, rfl⟩

/-- A run of commands goes on with the rest from the state it has reached. -/
theorem execAll_append {cmds : List Instr} {s t : State} (h : execAll cmds s = .next t) (rest : List Instr) :
    execAll (cmds ++ rest) s = execAll rest t := by
  induction cmds generalizing s with
  | nil => cases h; rfl
  | cons i cmds ih =>
    rw [List.cons_append, execAll]
    rw [execAll] at h
    cases hExec : execCollapsed i s with
    | next u =>
      rw [hExec] at h
      exact ih h
    | fault reason => rw [hExec] at h; cases h
    | refused reason => rw [hExec] at h; cases h

/-- FINAL with its busy interval collapsed: the final block is started and completed (rule R177, rule R245). -/
theorem execAll_final {s : State} (hFsm : s.fsm = .accum) (hAligned : unaligned s = false) :
    execAll [.final] s = .next (completeCompress (succeed ((finalBlock s).setFsm .final))) := by
  have hBusy : (succeed ((finalBlock s).setFsm .final)).busy = true := rfl
  rw [execAll, execCollapsed, exec_final_of_accum hFsm hAligned, collapseOutcome, collapse_of_busy hBusy]
  rfl

/-- Settles O53: FINAL finds the stream taken in, counts it to its end, and its compression gives the hash. -/
theorem finalLeavesTheHashOfTheStream : Obligations.FinalLeavesTheHashOfTheStream := by
  unfold Obligations.FinalLeavesTheHashOfTheStream
  intro s cmds hIdle hFeed hAligned
  obtain ⟨t, hRun, hTook⟩ := execAll_init_of_isFeed hIdle hFeed
  have hFinal := execAll_final (Absorbed.fsm hTook) (hTook.unaligned_eq_false hAligned)
  obtain ⟨hLo, hHi⟩ := hTook.finalBlock_counter
  exact ⟨_, (execAll_append hRun [.final]).trans hFinal, rfl, rfl, rfl, rfl, hLo, hHi, hTook.finalBlock_result⟩

end Sys2Proof.Machine
end

section
/-! Proofs for spec/43_commands.md, third part: byte-serial append against the source's chunked update (rule R173). The two differ
in what they leave of a compressed block in the buffer and in the hidden fields, which no read tells; so they are compared by
`State.SameVisible`. -/

namespace Sys2Proof.Machine

/-! ### States that no read tells apart -/

theorem State.SameVisible.refl (s : State) : s.SameVisible s :=
  ⟨rfl, rfl, rfl, rfl, rfl, rfl, rfl, rfl, rfl, rfl, rfl, rfl, fun _ _ => rfl, fun _ => rfl, fun _ => rfl⟩

theorem State.SameVisible.trans {s t u : State} (h1 : s.SameVisible t) (h2 : t.SameVisible u) : s.SameVisible u where
  cfg := h1.cfg.trans h2.cfg
  fsm := h1.fsm.trans h2.fsm
  chain := h1.chain.trans h2.chain
  tLo := h1.tLo.trans h2.tLo
  tHi := h1.tHi.trans h2.tHi
  f0 := h1.f0.trans h2.f0
  f1 := h1.f1.trans h2.f1
  bufLen := h1.bufLen.trans h2.bufLen
  errc := h1.errc.trans h2.errc
  errs := h1.errs.trans h2.errs
  busy := h1.busy.trans h2.busy
  host := h1.host.trans h2.host
  validBytes := fun a ha => (h1.validBytes a ha).trans (h2.validBytes a (h1.bufLen ▸ ha))
  cycles := fun hb => (h1.cycles hb).trans (h2.cycles (h1.busy ▸ hb))
  result := fun hb => (h1.result hb).trans (h2.result (h1.busy ▸ hb))

/-- Two such states complete to two such states (rule R245). -/
theorem State.SameVisible.collapse {s t : State} (h : s.SameVisible t) : (collapse s).SameVisible (collapse t) := by
  cases hBusy : s.busy with
  | false => rwa [collapse_of_idle hBusy, collapse_of_idle (h.busy ▸ hBusy)]
  | true =>
    rw [collapse_of_busy hBusy, collapse_of_busy (h.busy ▸ hBusy)]
    exact { h with chain := h.result hBusy, busy := rfl, cycles := nofun, result := nofun }

@[simp] theorem collapse_buf (s : State) : (collapse s).buf = s.buf := by
  cases h : s.busy <;> simp [collapse, h]

theorem State.SameVisible.appendCollapsed {s t : State} (h : s.SameVisible t) (hs : Memory.wf s.buf = true)
    (ht : Memory.wf t.buf = true) (bytes : List Byte) : (appendCollapsed bytes s).SameVisible (appendCollapsed bytes t) := by
  induction bytes generalizing s t with
  | nil => exact h
  | cons b bytes ih =>
    have hByte : (appendByte b s).SameVisible (appendByte b t) := h.appendBytes hs ht [b]
    refine ih hByte.collapse ?_ ?_
    · rw [collapse_buf]
      exact appendBytes_wf [b] s hs
    · rw [collapse_buf]
      exact appendBytes_wf [b] t ht

/-! ### Copying into the buffer -/

/-- Bytes that fit are copied by either way (rule R172). -/
theorem copyIn_eq_appendBytes {bytes : List Byte} {s : State} (hFit : s.bufLen.val + bytes.length ≤ 64) :
    copyIn bytes s = appendBytes bytes s := by
  induction bytes generalizing s with
  | nil => rfl
  | cons b bytes ih =>
    rw [List.length_cons] at hFit
    have hNotFull : s.bufLen ≠ 64 := by omega
    have hNext : (storeByte b s).bufLen.val ≤ s.bufLen.val + 1 := Nat.add_le_add_right (Nat.mod_le _ _) 1
    rw [copyIn, appendBytes, appendByte_of_not_full b hNotFull, ih (by omega)]

theorem copyIn_eq_appendCollapsed {bytes : List Byte} {s : State} (hIdle : s.busy = false)
    (hFit : s.bufLen.val + bytes.length ≤ 64) : copyIn bytes s = appendCollapsed bytes s := by
  have hCopied := collapse_appendBytes_of_fit bytes s hFit
  have hStays : (appendBytes bytes s).busy = false := by rw [appendBytes_fit bytes s hFit]; exact hIdle
  rwa [collapse_of_idle hIdle, collapse_of_idle hStays, ← copyIn_eq_appendBytes hFit] at hCopied

/-- The state with the buffer filled to 64 bytes by copying. -/
theorem copyIn_fill {block : List Byte} {s : State} (hFill : s.bufLen.val + block.length = 64) :
    copyIn block s = (s.setBuf (Memory.writeBytes s.buf s.bufLen.val block hFill.le)).setBufLen 64 := by
  rw [copyIn_eq_appendBytes hFill.le, appendBytes_fit block s hFill.le]
  exact congrArg _ (Fin.ext hFill)

/-! ### Compressing a full buffer -/

/-- The source's compression of the buffer, which is the one of the block trigger (rule R171). -/
theorem compressBuffer_eq_completeCompress (s : State) :
    compressBuffer s = completeCompress ((startCompress (counterAdd 64 s)).setBufLen 0) :=
  collapse_of_busy rfl

theorem compressBuffer_eq_collapse_flushFull {s : State} (hFull : s.bufLen = 64) :
    compressBuffer s = collapse (flushFull s) := by
  rw [compressBuffer, flushFull_full s hFull]

theorem compressBuffer_buf (s : State) : (compressBuffer s).buf = s.buf := collapse_buf _

theorem compressBuffer_bufLen (s : State) : (compressBuffer s).bufLen = 0 := collapse_bufLen _

theorem compressBuffer_busy (s : State) : (compressBuffer s).busy = false := collapse_busy _

/-- A further byte after a full buffer comes to the emptied one: the trigger may be taken first (rule R171). -/
theorem appendCollapsed_of_full {bytes : List Byte} {s : State} (hFull : s.bufLen = 64) (hMore : bytes ≠ []) :
    appendCollapsed bytes s = appendCollapsed bytes (compressBuffer s) := by
  cases bytes with
  | nil => exact absurd rfl hMore
  | cons b bytes =>
    have hNotFull : (compressBuffer s).bufLen ≠ 64 := by rw [compressBuffer_bufLen]; decide
    rw [appendCollapsed, appendCollapsed, appendByte_of_not_full b hNotFull, collapse_storeByte,
      collapse_of_idle (compressBuffer_busy s), compressBuffer_eq_collapse_flushFull hFull, ← collapse_storeByte, ← appendByte]

/-- Bytes that fill the buffer and go on: the filled buffer is compressed, and the rest enters the emptied one. -/
theorem appendCollapsed_past_full {block rest : List Byte} {s : State} (hIdle : s.busy = false)
    (hFill : s.bufLen.val + block.length = 64) (hMore : rest ≠ []) :
    appendCollapsed (block ++ rest) s = appendCollapsed rest (compressBuffer (copyIn block s)) := by
  have hFull : (copyIn block s).bufLen = 64 := by rw [copyIn_fill hFill, State.setBufLen_bufLen]
  rw [appendCollapsed_append, ← copyIn_eq_appendCollapsed hIdle hFill.le, appendCollapsed_of_full hFull hMore]

/-- Filling the buffer is no part of what CounterAdd reads. -/
theorem counterNext_copyIn {block : List Byte} {s : State} (hFill : s.bufLen.val + block.length = 64) (n : Nat) :
    counterNext n (copyIn block s) = counterNext n s := by
  simp only [copyIn_fill hFill, counterNext, counter, State.setBufLen_cfg, State.setBuf_cfg, State.setBufLen_tLo,
    State.setBuf_tLo, State.setBufLen_tHi, State.setBuf_tHi]

/-- Compressing the filled buffer leaves it in canonical form. -/
theorem compressBuffer_copyIn_wf {block : List Byte} {s : State} (hFill : s.bufLen.val + block.length = 64)
    (hWf : Memory.wf s.buf = true) : Memory.wf (compressBuffer (copyIn block s)).buf = true := by
  rw [compressBuffer_buf, copyIn_eq_appendBytes hFill.le]
  exact appendBytes_wf block s hWf

/-- A block copied to the empty buffer is loaded as it stands in the input (rule R141). -/
theorem loadMessage_copyIn {block : List Byte} {s : State} (hEmpty : s.bufLen = 0) (hWf : Memory.wf s.buf = true)
    (hLen : block.length = 64) : loadMessage (copyIn block s).buf = streamMessage block 0 := by
  have hZero : s.bufLen.val = 0 := congrArg Fin.val hEmpty
  rw [copyIn_fill (by omega), State.setBufLen_buf, State.setBuf_buf]
  refine loadMessage_eq_streamMessage fun a => ?_
  have hIn : s.bufLen.val ≤ a.val ∧ a.val < s.bufLen.val + block.length := by omega
  rw [Memory.read_writeBytes _ _ _ _ _ hWf, if_pos hIn, hZero, Nat.sub_zero, Nat.mul_zero, Nat.zero_add]

/-- Compressing a block through the empty buffer or straight from the input differs in the stale bytes alone. -/
theorem compressBuffer_copyIn_sameVisible {block : List Byte} {s : State} (hIdle : s.busy = false) (hEmpty : s.bufLen = 0)
    (hWf : Memory.wf s.buf = true) (hLen : block.length = 64) :
    (compressBuffer (copyIn block s)).SameVisible (compressDirect block s) := by
  have hFill : s.bufLen.val + block.length = 64 := by omega
  have hMessage := loadMessage_copyIn hEmpty hWf hLen
  have hCounter := counterNext_copyIn hFill 64
  rw [copyIn_fill hFill] at hMessage hCounter ⊢
  generalize Memory.writeBytes s.buf s.bufLen.val block hFill.le = mem at *
  rw [State.setBufLen_buf, State.setBuf_buf] at hMessage
  rw [compressBuffer_eq_completeCompress]
  constructor
  case chain =>
    rw [completeCompress_chain, State.setBufLen_hidden, startCompress_result]
    simp [compressDirect, hMessage, hCounter]
  case tHi => simp [compressDirect, hCounter]
  case validBytes => nofun
  case cycles => nofun
  case result => nofun
  all_goals simp [compressDirect, hIdle, hEmpty]

/-! ### The source's update -/

theorem appendCollapsed_sameVisible_copyIn {bytes : List Byte} {s : State} (hIdle : s.busy = false)
    (hFit : s.bufLen.val + bytes.length ≤ 64) : (appendCollapsed bytes s).SameVisible (copyIn bytes s) := by
  rw [copyIn_eq_appendCollapsed hIdle hFit]
  exact .refl _

/-- The source's loop, from an empty buffer: block by block straight from the input, where AppendByte fills the buffer with
each, and then the tail. -/
theorem appendCollapsed_sameVisible_sourceLoop {fuel : Nat} {bytes : List Byte} {s : State} (hFuel : bytes.length ≤ fuel)
    (hIdle : s.busy = false) (hEmpty : s.bufLen = 0) (hWf : Memory.wf s.buf = true) :
    (appendCollapsed bytes s).SameVisible (sourceLoop fuel bytes s) := by
  induction fuel generalizing bytes s with
  | zero => exact appendCollapsed_sameVisible_copyIn hIdle (by omega)
  | succ fuel ih =>
    rw [sourceLoop]
    split
    next hLong =>
      have hBlock : (bytes.take 64).length = 64 := List.length_take_of_le hLong.le
      have hFill : s.bufLen.val + (bytes.take 64).length = 64 := by omega
      have hMore : bytes.drop 64 ≠ [] := mt List.drop_eq_nil_iff.mp hLong.not_ge
      have hSplit := appendCollapsed_past_full hIdle hFill hMore
      have hDirect := compressBuffer_copyIn_sameVisible hIdle hEmpty hWf hBlock
      have hRest := ih (bytes := bytes.drop 64) (s := compressDirect (bytes.take 64) s) (by rw [List.length_drop]; omega)
        hIdle hEmpty hWf
      rw [List.take_append_drop] at hSplit
      rw [hSplit]
      exact (hDirect.appendCollapsed (compressBuffer_copyIn_wf hFill hWf) hWf (bytes.drop 64)).trans hRest
    next hNot => exact appendCollapsed_sameVisible_copyIn hIdle (by omega)

/-- The source's update leaves what AppendByte on each byte leaves, as far as any read tells (rule R173). -/
theorem appendCollapsed_sameVisible_sourceUpdate (bytes : List Byte) {s : State} (hIdle : s.busy = false)
    (hWf : Memory.wf s.buf = true) : (appendCollapsed bytes s).SameVisible (sourceUpdate bytes s) := by
  have hLt := s.bufLen.isLt
  rw [sourceUpdate]
  split
  next hFits => exact appendCollapsed_sameVisible_copyIn hIdle (by omega)
  next hPast =>
    have hFill : s.bufLen.val + (bytes.take (64 - s.bufLen.val)).length = 64 := by rw [List.length_take]; omega
    have hMore : bytes.drop (64 - s.bufLen.val) ≠ [] := mt List.drop_eq_nil_iff.mp hPast
    have hSplit := appendCollapsed_past_full hIdle hFill hMore
    rw [List.take_append_drop] at hSplit
    rw [hSplit]
    exact appendCollapsed_sameVisible_sourceLoop (List.drop_sublist _ _).length_le (compressBuffer_busy _)
      (compressBuffer_bufLen _) (compressBuffer_copyIn_wf hFill hWf)

/-- Settles O55: no read tells the two ends apart. -/
theorem byteSerialAppendMatchesTheSourceUpdate : Obligations.ByteSerialAppendMatchesTheSourceUpdate := by
  unfold Obligations.ByteSerialAppendMatchesTheSourceUpdate
  intro s bytes _ hIdle hWf
  have hSame := appendCollapsed_sameVisible_sourceUpdate bytes hIdle hWf
  exact ⟨hSame.chain, hSame.tLo, hSame.tHi, hSame.bufLen, hSame.validBytes⟩

end Sys2Proof.Machine
end

section
/-! Proofs for spec/60_exceptions.md: the misuses of the commands (rule R205, rule R206), and a step faults on these alone, with
`STRICT = 0` (rule R202). -/

namespace Sys2Proof.Machine

/-! ### The misuses -/

/-- The command `i` is, in the state `s`, the misuse that the fault `r` names (rule R205); `STRICT` says only what it answers.
`exec_eq_fault_iff` ties it to the machine. -/
def IsMisuse (s : State) (i : Instr) (r : Fault) : Prop :=
  (r = .updateOutsideAccum ∧ s.fsm ≠ .accum ∧ ∃ nb data, i = .update nb data) ∨
    (r = .finalOutsideAccum ∧ s.fsm ≠ .accum ∧ i = .final) ∨
    (r = .unalignedLength ∧ s.fsm = .accum ∧ unaligned s = true ∧ i = .final)

/-- The host's side of an edge makes no misuse and ends none. -/
theorem isMisuse_clockHost (accepted : Bool) (s : State) (i : Instr) (r : Fault) :
    IsMisuse (clockHost accepted s) i r ↔ IsMisuse s i r :=
  Iff.rfl

/-- With `STRICT = 0` a misuse faults under its name (rule R205). -/
theorem exec_of_isMisuse {s : State} {i : Instr} {r : Fault} (hStrict : s.cfg.strict = false) (h : IsMisuse s i r) :
    exec i s = .fault r := by
  rcases h with ⟨rfl, hFsm, nb, data, rfl⟩ | ⟨rfl, hFsm, rfl⟩ | ⟨rfl, hFsm, hUnaligned, rfl⟩
  · rw [exec_update_of_not_accum nb data hFsm, misuse_of_not_strict hStrict]
  · rw [exec_final_of_not_accum hFsm, misuse_of_not_strict hStrict]
  · rw [exec_final_of_unaligned hFsm hUnaligned, misuse_of_not_strict hStrict]

/-- A command goes on, or is a misuse that nothing checks. -/
theorem exec_runs_or_faults (i : Instr) (s : State) :
    Runs (exec i s) ∨ ∃ r, exec i s = .fault r ∧ s.cfg.strict = false ∧ IsMisuse s i r := by
  cases i with
  | nop => exact .inl ⟨_, rfl⟩
  | init => exact .inl ⟨_, rfl⟩
  | update nb data =>
    rcases execUpdate_cases nb data s with ⟨-, hExec⟩ | ⟨-, -, hExec⟩ | ⟨hFsm, hStrict, hExec⟩
    · exact .inl ⟨_, hExec⟩
    · exact .inl ⟨_, hExec⟩
    · exact .inr ⟨_, hExec, hStrict, .inl ⟨rfl, hFsm, nb, data, rfl⟩⟩
  | final =>
    rcases execFinal_cases s with
      ⟨-, -, hExec⟩ | ⟨-, -, -, hExec⟩ | ⟨hFsm, hUnaligned, hStrict, hExec⟩ | ⟨-, -, hExec⟩ | ⟨hFsm, hStrict, hExec⟩
    · exact .inl ⟨_, hExec⟩
    · exact .inl ⟨_, hExec⟩
    · exact .inr ⟨_, hExec, hStrict, .inr (.inr ⟨rfl, hFsm, hUnaligned, rfl⟩)⟩
    · exact .inl ⟨_, hExec⟩
    · exact .inr ⟨_, hExec, hStrict, .inr (.inl ⟨rfl, hFsm, rfl⟩)⟩

theorem exec_eq_fault_iff (i : Instr) (s : State) (r : Fault) :
    exec i s = .fault r ↔ s.cfg.strict = false ∧ IsMisuse s i r := by
  refine ⟨fun h => ?_, fun ⟨hStrict, hMisuse⟩ => exec_of_isMisuse hStrict hMisuse⟩
  rcases exec_runs_or_faults i s with ⟨t, hNext⟩ | ⟨r', hFault, hUnchecked⟩
  · cases hNext.symm.trans h
  · cases hFault.symm.trans h
    exact hUnchecked

theorem exec_ne_refused (i : Instr) (s : State) (r : Refusal) : exec i s ≠ .refused r := by
  intro h
  rcases exec_runs_or_faults i s with ⟨t, hNext⟩ | ⟨r', hFault, -⟩
  · cases hNext.symm.trans h
  · cases hFault.symm.trans h

/-- Settles O17: outside ACCUM both commands are misuses, which `STRICT` decides. -/
theorem misuseOutsideAccum : Obligations.MisuseOutsideAccum := by
  unfold Obligations.MisuseOutsideAccum
  intro s nb data hOutside
  have hFsm : s.fsm ≠ .accum := by rcases hOutside with h | h <;> simp [h]
  rw [exec_update_of_not_accum nb data hFsm, exec_final_of_not_accum hFsm]
  exact ⟨fun hStrict => ⟨misuse_of_strict hStrict _ _, misuse_of_strict hStrict _ _⟩,
    fun hStrict => ⟨misuse_of_not_strict hStrict _ _, misuse_of_not_strict hStrict _ _⟩⟩

/-! ### The faults of a step -/

/-- The step that accepts a command is that command, after the host's side of the edge (rule R160). -/
theorem step_of_accepts {s : State} {i : Instr} (h : Accepts s i) : step s = exec i (clockHost true s) := by
  obtain ⟨w, data, hEvent, hDec⟩ := h
  rw [step, hEvent]
  exact acceptCommand_of_instr hDec _

/-- Only an accepted command can stop a step: a reset, busy or idle edge and an illegal word go on. -/
theorem step_runs_or_accepts (s : State) : Runs (step s) ∨ ∃ i, Accepts s i := by
  unfold step
  cases hEvent : edgeEvent s with
  | reset => exact .inl ⟨_, rfl⟩
  | busy => exact .inl ⟨_, rfl⟩
  | idle => exact .inl ⟨_, rfl⟩
  | accept w data =>
    cases hLegal : legal w with
    | false => exact .inl ⟨_, acceptCommand_of_not_legal hLegal data _⟩
    | true =>
      obtain ⟨i, hDec⟩ := (decode_instr_iff_legal w data).mpr hLegal
      exact .inr ⟨i, w, data, hEvent, hDec⟩

theorem step_ne_refused (s : State) (r : Refusal) : step s ≠ .refused r := by
  intro h
  rcases step_runs_or_accepts s with ⟨t, hNext⟩ | ⟨i, hAcc⟩
  · cases hNext.symm.trans h
  · exact exec_ne_refused i _ r ((step_of_accepts hAcc).symm.trans h)

/-- A step faults exactly on an accepted misuse with `STRICT = 0`. -/
theorem step_eq_fault_iff (s : State) (r : Fault) :
    step s = .fault r ↔ s.cfg.strict = false ∧ ∃ i, Accepts s i ∧ IsMisuse s i r := by
  have hExec (i : Instr) (hAcc : Accepts s i) : step s = .fault r ↔ s.cfg.strict = false ∧ IsMisuse s i r := by
    rw [step_of_accepts hAcc, exec_eq_fault_iff, isMisuse_clockHost]
    rfl
  refine ⟨fun h => ?_, fun ⟨hStrict, i, hAcc, hMisuse⟩ => (hExec i hAcc).mpr ⟨hStrict, hMisuse⟩⟩
  rcases step_runs_or_accepts s with ⟨t, hNext⟩ | ⟨i, hAcc⟩
  · cases hNext.symm.trans h
  · obtain ⟨hStrict, hMisuse⟩ := (hExec i hAcc).mp h
    exact ⟨hStrict, i, hAcc, hMisuse⟩

/-- The accepted misuses, by the reason, with the length check of block-only mode written out (rule R176). -/
theorem accepts_isMisuse_iff (s : State) (r : Fault) :
    (∃ i, Accepts s i ∧ IsMisuse s i r) ↔
      (r = .updateOutsideAccum ∧ s.fsm ≠ .accum ∧ ∃ nb data, Accepts s (.update nb data)) ∨
        (r = .finalOutsideAccum ∧ s.fsm ≠ .accum ∧ Accepts s .final) ∨
        (r = .unalignedLength ∧ s.fsm = .accum ∧ s.cfg.blockOnly = true ∧ s.bufLen ≠ 0 ∧ s.bufLen ≠ 64 ∧
          Accepts s .final) := by
  constructor
  · rintro ⟨i, hAcc, ⟨hr, hFsm, nb, data, rfl⟩ | ⟨hr, hFsm, rfl⟩ | ⟨hr, hFsm, hUnaligned, rfl⟩⟩
    · exact .inl ⟨hr, hFsm, nb, data, hAcc⟩
    · exact .inr (.inl ⟨hr, hFsm, hAcc⟩)
    · obtain ⟨hBlock, hNotEmpty, hNotFull⟩ := (unaligned_iff s).mp hUnaligned
      exact .inr (.inr ⟨hr, hFsm, hBlock, hNotEmpty, hNotFull, hAcc⟩)
  · rintro (⟨hr, hFsm, nb, data, hAcc⟩ | ⟨hr, hFsm, hAcc⟩ | ⟨hr, hFsm, hBlock, hNotEmpty, hNotFull, hAcc⟩)
    · exact ⟨_, hAcc, .inl ⟨hr, hFsm, nb, data, rfl⟩⟩
    · exact ⟨_, hAcc, .inr (.inl ⟨hr, hFsm, rfl⟩)⟩
    · exact ⟨_, hAcc, .inr (.inr ⟨hr, hFsm, (unaligned_iff s).mpr ⟨hBlock, hNotEmpty, hNotFull⟩, rfl⟩)⟩

/-- With `STRICT = 1` a step goes on: it is not refused, and a fault asks for `STRICT = 0`. -/
theorem step_runs_of_strict {s : State} (hStrict : s.cfg.strict = true) : Runs (step s) := by
  cases hStep : step s with
  | next t => exact ⟨t, rfl⟩
  | fault r =>
    obtain ⟨hNotStrict, -⟩ := (step_eq_fault_iff s r).mp hStep
    cases hStrict.symm.trans hNotStrict
  | refused r => exact absurd hStep (step_ne_refused s r)

/-- Settles O44: a step stops only with the fault of an accepted misuse. -/
theorem stepFaultsOnlyOnUncheckedMisuse : Obligations.StepFaultsOnlyOnUncheckedMisuse := by
  unfold Obligations.StepFaultsOnlyOnUncheckedMisuse
  exact fun s => ⟨step_ne_refused s, fun r => (step_eq_fault_iff s r).trans (and_congr_right' (accepts_isMisuse_iff s r)),
    step_runs_of_strict⟩

end Sys2Proof.Machine
end

section
/-! Proofs for spec/70_reset_and_hazards.md: a command's acceptance edge and the edges of its compression against the collapsed
reading (rule R245, rule R248). No command reads or writes the host's side, so the acceptance edge is the command with the host
moved on; the edges that follow lead to the collapsed state, with the host where the acceptance edge left it. -/

namespace Sys2Proof.Machine

/-! ### A command and the host's side -/

theorem flushFull_setHost (p : HostPort) (s : State) : flushFull (s.setHost p) = (flushFull s).setHost p := by
  by_cases hFull : s.bufLen = 64
  · rw [flushFull_full s hFull, flushFull_full (s.setHost p) hFull]
    rfl
  · rw [flushFull_notFull s hFull, flushFull_notFull (s.setHost p) hFull]

theorem appendBytes_setHost (p : HostPort) (bytes : List Byte) (s : State) :
    appendBytes bytes (s.setHost p) = (appendBytes bytes s).setHost p := by
  induction bytes generalizing s with
  | nil => rfl
  | cons b bytes ih =>
    have hByte : appendByte b (s.setHost p) = (appendByte b s).setHost p := congrArg (storeByte b) (flushFull_setHost p s)
    rw [appendBytes, hByte, ih, appendBytes]

theorem misuse_setHost (code : ErrCode) (reason : Fault) (p : HostPort) (s : State) :
    misuse code reason (s.setHost p) = mapNext (State.setHost · p) (misuse code reason s) := by
  cases hStrict : s.cfg.strict with
  | false => rw [misuse_of_not_strict hStrict, misuse_of_not_strict (s := s.setHost p) hStrict]; rfl
  | true => rw [misuse_of_strict hStrict, misuse_of_strict (s := s.setHost p) hStrict]; rfl

/-- A command does the same whatever the host drives, and leaves it (log 8). -/
theorem exec_setHost (i : Instr) (p : HostPort) (s : State) :
    exec i (s.setHost p) = mapNext (State.setHost · p) (exec i s) := by
  cases i with
  | nop => rfl
  | init => rfl
  | update nb data =>
    by_cases hFsm : s.fsm = .accum
    · rw [exec_update_of_accum nb data hFsm, exec_update_of_accum (s := s.setHost p) nb data hFsm, appendBytes_setHost]
      rfl
    · rw [exec_update_of_not_accum nb data hFsm, exec_update_of_not_accum (s := s.setHost p) nb data hFsm, misuse_setHost]
  | final =>
    by_cases hFsm : s.fsm = .accum
    · cases hUnaligned : unaligned s with
      | false => rw [exec_final_of_accum hFsm hUnaligned, exec_final_of_accum (s := s.setHost p) hFsm hUnaligned]; rfl
      | true =>
        rw [exec_final_of_unaligned hFsm hUnaligned, exec_final_of_unaligned (s := s.setHost p) hFsm hUnaligned,
          misuse_setHost]
    · rw [exec_final_of_not_accum hFsm, exec_final_of_not_accum (s := s.setHost p) hFsm, misuse_setHost]

/-- The edge that accepts a decoded command leaves what the command leaves, with the host moved on (rule R160, rule R70). -/
theorem step_of_presented_instr {s t : State} {w data : Word} {rest : List Presented} {i : Instr} (hRst : rstNow s = false)
    (hIdle : s.busy = false) (hQueue : s.host.queue = .command w data :: rest) (hDec : decode w data = .instr i)
    (hExec : exec i s = .next t) :
    step s = .next (t.setHost { rstWire := s.host.rstWire.tail, queue := rest }) := by
  rw [step_of_presented hRst hIdle hQueue, acceptCommand_of_instr hDec, exec_setHost, hExec]
  rfl

/-! ### The host's side while a compression runs -/

theorem rstNow_of_wire_nil {s : State} (hWire : s.host.rstWire = []) : rstNow s = false := by
  rw [rstNow, hWire, List.headD_nil]

/-- With `rst` low and no idle edge due, the host drives the same at the next edge that accepts nothing (rule R240 item 1). -/
theorem afterEdge_false_eq_self {h : HostPort} (hWire : h.rstWire = []) (hQueue : h.queue.head? ≠ some .idle) :
    h.afterEdge false = h := by
  obtain ⟨wire, queue⟩ := h
  obtain rfl : wire = [] := hWire
  match queue, hQueue with
  | [], _ => rfl
  | .command w data :: rest, _ => rfl
  | .idle :: rest, hIdle => exact absurd rfl hIdle

/-- While the host drives the same at every edge, the edges of a compression leave the collapsed state but for the hidden fields
and the free-value counter (rule R245, rule R248). -/
theorem run_to_completion_of_held {s : State} (hBusy : s.busy = true) (hWire : s.host.rstWire = [])
    (hQueue : s.host.queue.head? ≠ some .idle) (hPos : 1 ≤ s.hidden.cyc) :
    ∃ hid n, Host.Core.run Sys2Proof.core s.hidden.cyc s = .next (((collapse s).withFree hid n).setHost s.host) := by
  obtain ⟨c, hc⟩ : ∃ c, s.hidden.cyc = c + 1 := Nat.exists_eq_add_of_le' hPos
  obtain ⟨hid, n, host, hRun⟩ := run_to_completion c hBusy (fun k _ => by rw [hWire]; rfl) hc
  obtain ⟨u, hReach, hHost, -⟩ :=
    run_of_busy s.hidden.cyc hBusy (rstNow_of_wire_nil hWire) (afterEdge_false_eq_self hWire hQueue) hPos le_rfl
  rw [← hc, hReach] at hRun
  cases hRun
  obtain rfl : host = s.host := hHost
  exact ⟨hid, n, hReach⟩

/-! ### The collapsed reading -/

theorem collapse_setHost (p : HostPort) (s : State) : collapse (s.setHost p) = (collapse s).setHost p := by
  cases hBusy : s.busy with
  | false => rw [collapse_of_idle hBusy, collapse_of_idle (s := s.setHost p) hBusy]
  | true => rw [collapse_of_busy hBusy, collapse_of_busy (s := s.setHost p) hBusy]; rfl

/-- Between compressions no read tells the free values (rule R35). -/
theorem withFree_sameVisible {s : State} (hIdle : s.busy = false) (hid : Hidden) (n : Nat) :
    (s.withFree hid n).SameVisible s :=
  { State.SameVisible.refl s with
    cycles := fun hBusy => absurd hBusy (by simp [hIdle])
    result := fun hBusy => absurd hBusy (by simp [hIdle]) }

/-- Settles O38: the acceptance edge leaves the command's state with the host moved on; if that is busy, the whole of
COMPRESS_CYCLES remains, and its edges lead to the collapsed state. -/
theorem collapseAgreesWithTheEdges : Obligations.CollapseAgreesWithTheEdges := by
  unfold Obligations.CollapseAgreesWithTheEdges
  intro s t w data rest i hInv hIdle hWire hQueue hNoIdle hDec hExec
  have hStep : step s = .next (t.setHost { rstWire := [], queue := rest }) := by
    have hAccept := step_of_presented_instr (rstNow_of_wire_nil hWire) hIdle hQueue hDec hExec
    rwa [hWire] at hAccept
  rw [Nat.add_comm, run_succ_of_step (M := Sys2Proof.core) hStep]
  cases hBusy : t.busy with
  | false =>
    rw [collapse_of_idle hBusy]
    exact ⟨_, rfl, .refl _⟩
  | true =>
    obtain ⟨-, hCycles⟩ := onlyCompressionsRaiseBusy i s t hIdle (decode_wellFormed w data i hDec) hExec
    have hCyc : t.hidden.cyc = s.cfg.compressCycles := hCycles hBusy
    obtain ⟨hid, n, hRun⟩ := run_to_completion_of_held (s := t.setHost { rstWire := [], queue := rest }) hBusy rfl hNoIdle
      (hInv.paramsValid.trans_eq hCyc.symm)
    rw [collapse_setHost] at hRun
    rw [if_pos rfl, ← hCyc]
    exact ⟨_, hRun, (withFree_sameVisible (collapse_busy t) hid n).setHost _⟩

end Sys2Proof.Machine
end
